-- ==== Sys2Proof/Word.lean ====
section
/-! DEFINITION. The byte and its bit numbering (R10), and the constants of the transform (R7). -/

namespace Sys2Proof

/-- A byte, "an unsigned integer `0x00 ..= 0xFF` of 8 bits" (R10). Bit `i` of `b` is `b.getLsbD i`:
bit 7 is the most significant, bit 0 the least significant. -/
abbrev Byte := BitVec 8

/-- `ZERO_MARK`, "the marker byte that stands for bit value 0" (R7). -/
abbrev zeroMark : Byte := 0x00#8

/-- `ONE_MARK`, "the marker byte that stands for bit value 1" (R7). -/
abbrev oneMark : Byte := 0xFF#8

/-- `(x << 1) mod 256`: the old bit 7 discarded, bit 0 cleared (R12). -/
def shiftLeftOne (x : Byte) : Byte := x <<< 1

/-- `x | 1`: bit 0 set (R12). -/
def setBitZero (x : Byte) : Byte := x ||| 1#8

end Sys2Proof
end

