-- ==== Sys2Proof/Syntax.lean ====
section
/-! DEFINITION. The instructions: one constructor of `Instr` for each row of spec/opcode_table.json
(R79), and the names their operands are made of. -/

namespace Sys2Proof

/-- The two units (R1, R17): the unit bit of a register number or buffer access is 0 for ENC and 1
for DEC (R76). -/
inductive UnitId where
  | enc
  | dec
  deriving DecidableEq, Repr

/-- The two buffers of a unit (R37). -/
inductive Buf where
  | src
  | dst
  deriving DecidableEq, Repr

/-- The register indices of a unit (R27): six registers, and the indices 6 and 7 that name none. -/
inductive RegIdx where
  | ctrl
  | status
  | len
  | outLen
  | errValue
  | errOffset
  | none6
  | none7
  deriving DecidableEq, Repr

/-- A `GROUP` (R73): eight bytes in offset order, "a vector of 8 bytes indexed by `j`" (R52).
`g0` is the byte at the lowest offset and carries plain bit 7. -/
@[ext] structure Group where
  g0 : Byte
  g1 : Byte
  g2 : Byte
  g3 : Byte
  g4 : Byte
  g5 : Byte
  g6 : Byte
  g7 : Byte
  deriving DecidableEq, Repr

/-- The byte at position `j` of a group, `g[j]` (R73). -/
def Group.get (g : Group) (j : Fin 8) : Byte :=
  match j with
  | 0 => g.g0
  | 1 => g.g1
  | 2 => g.g2
  | 3 => g.g3
  | 4 => g.g4
  | 5 => g.g5
  | 6 => g.g6
  | 7 => g.g7

/-- The group whose byte at position `j` is `f j`. -/
def Group.ofFn (f : Fin 8 → Byte) : Group :=
  ⟨f 0, f 1, f 2, f 3, f 4, f 5, f 6, f 7⟩

/-- The bytes of a group in offset order (R73). -/
def Group.toList (g : Group) : List Byte :=
  [g.g0, g.g1, g.g2, g.g3, g.g4, g.g5, g.g6, g.g7]

/-- The operations of the block (R79). Levels L0 and "code" are the pure functions and the marker
codes, ENCODE and DECODE the two commands, the last five the host access operations. -/
inductive Instr where
  /-- `ENCBIT`, R100: the marker of one bit. -/
  | encbit (b : Bool)
  /-- `ENC8`, R102: the group of one plain byte. -/
  | enc8 (p : Byte)
  /-- `ENCODE`, R108: `CMD` `00001`, START of unit ENC. -/
  | encode
  /-- `DECMARK`, R120: what one byte stands for. -/
  | decmark (m : Byte)
  /-- `MARK.ZERO`, R121: the marker pattern `00000000`. -/
  | markZero
  /-- `MARK.ONE`, R121: the marker pattern `11111111`. -/
  | markOne
  /-- `MARK.INVALID`, R122: every other marker pattern. -/
  | markInvalid (v : Byte)
  /-- `DEC8`, R124: the plain byte of one group, or its first bad position. -/
  | dec8 (g : Group)
  /-- `DECODE`, R134: `CMD` `10001`, START of unit DEC. -/
  | decode
  /-- `WRR`, R151: host write of a register. -/
  | wrr (u : UnitId) (r : RegIdx) (v : Nat)
  /-- `RDR`, R150: host read of a register. -/
  | rdr (u : UnitId) (r : RegIdx)
  /-- `WRS`, R154: host write of a source-buffer byte. -/
  | wrs (u : UnitId) (a : Nat) (v : Byte)
  /-- `RDS`, R155: host read of a source-buffer byte. -/
  | rds (u : UnitId) (a : Nat)
  /-- `RDD`, R156: host read of a destination-buffer byte. -/
  | rdd (u : UnitId) (a : Nat)
  deriving DecidableEq, Repr

end Sys2Proof
end

