-- ==== Sys2Proof/Config.lean ====
section
/-! DEFINITION. What an instance of the block fixes (MAXLEN, R8), and the free values: the bytes of
unwritten buffer cells (U1, U2) and the scheduler's choices (R17). -/

namespace Sys2Proof

/-- Who moves next (R17): the host, unit ENC, unit DEC, or the platform, whose one move is the
RESET event (R220). -/
inductive Turn where
  | host
  | enc
  | dec
  | platform
  deriving DecidableEq, Repr, Inhabited

/-- The open parameter of an instance (R8). DESIGN CHOICE (log 1, safe): it is held in `State` as a
field no step changes, so that a statement about every state is about every instance. -/
structure Config where
  /-- `MAXLEN`, "a natural number or ∞" (D1): `none` is ∞. -/
  maxLen : Option Nat
  deriving DecidableEq, Repr

/-- The spec's default: `MAXLEN = ∞` (D1). -/
def Config.default : Config := ⟨none⟩

/-- FREE VALUE (log 2, safe): the byte an unwritten cell of a buffer holds, "a draw per cell at reset,
stable until written" (U1, U2). The first argument is the number of RESET events so far. -/
opaque Config.unwrittenByte : Nat → UnitId → Buf → Nat → Byte

/-- FREE VALUE (log 3, safe): who moves next when `State.turns` names nobody; the argument counts the
draws. "A model may schedule any agent that has an enabled step" (R17). -/
opaque Config.turnAt : Nat → Turn

end Sys2Proof
end

