-- ==== Sys2Proof/WellFormed.lean ====
section
/-! DEFINITION. Which instruction terms stand for an instruction of the table. -/

namespace Sys2Proof

/-- An instruction of the table. The one condition is on `MARK.INVALID`: the row "applies only when
neither MARK.ZERO nor MARK.ONE matches" (spec/opcode_table.json; R122). A register index 6 or 7 is
no ill-formed operand: the operation exists and is refused (R150, R151). -/
def WellFormed (i : Instr) : Bool :=
  match i with
  | .markInvalid v => v != zeroMark && v != oneMark
  | .encbit _ => true
  | .enc8 _ => true
  | .encode => true
  | .decmark _ => true
  | .markZero => true
  | .markOne => true
  | .dec8 _ => true
  | .decode => true
  | .wrr _ _ _ => true
  | .rdr _ _ => true
  | .wrs _ _ _ => true
  | .rds _ _ => true
  | .rdd _ _ => true

end Sys2Proof
end

