-- ==== Sys2Proof/Decode.lean ====
section
/-! DEFINITION. The encoded form of a host operation, the decoder from it to an instruction, and the
encoder. The spec encodes a line of a host program as the operation kind, the bits of its format and
the operands that are not part of the pattern (R79, R81; spec/95_test_vectors.md section 3), and
leaves its bus form to the platform (R60). DESIGN CHOICE (log 5): a request is exactly that triple. -/

namespace Sys2Proof

/-- The operation kind: what selects a row of the table besides its pattern bits (R79). `mark` is the
code level of a marker byte, decoded by the three rows of R80; `tableWord` is a word given with no
kind at all (log 6). -/
inductive Kind where
  | encbit
  | enc8
  | cmd
  | decmark
  | mark
  | dec8
  | wrr
  | rdr
  | wrs
  | rds
  | rdd
  | tableWord
  deriving DecidableEq, Repr

/-- One host operation in encoded form. -/
structure Request where
  kind : Kind
  /-- The bits of the format (R70): one byte, right-aligned, with the bits above the format's width
  0; for `GROUP` the eight bytes in sequence order. -/
  word : List Byte
  /-- The operands that are not part of the pattern: a value, an offset, a byte (R81). -/
  operands : List Nat
  deriving DecidableEq, Repr

/-- Why a request is no operation of the table. -/
inductive DecodeError where
  /-- The word or the operand list has not the shape of the kind's format. -/
  | wrongShape (k : Kind)
  /-- A bit above the format's width is set. -/
  | bitsAboveFormat (k : Kind)
  /-- A `CMD` word whose register number names no `CTRL` register (R70, R79). -/
  | notACommand (w : Byte)
  /-- The byte operand of `WRS` is above `0xFF` (R154). -/
  | byteOutOfRange (v : Nat)
  deriving DecidableEq, Repr

/-- The unit of a unit bit: 0 = ENC, 1 = DEC (R76). -/
def unitOfBit (b : Bool) : UnitId := if b then .dec else .enc

/-- The unit bit of a unit (R76). -/
def unitBit (u : UnitId) : Nat :=
  match u with
  | .enc => 0
  | .dec => 1

/-- The register index of the bits 2:0 of a register number (R27, R76). -/
def regOfIndex (i : Nat) : RegIdx :=
  match i with
  | 0 => .ctrl
  | 1 => .status
  | 2 => .len
  | 3 => .outLen
  | 4 => .errValue
  | 5 => .errOffset
  | 6 => .none6
  | _ => .none7

/-- The number of a register index (R27). -/
def regIndex (r : RegIdx) : Nat :=
  match r with
  | .ctrl => 0
  | .status => 1
  | .len => 2
  | .outLen => 3
  | .errValue => 4
  | .errOffset => 5
  | .none6 => 6
  | .none7 => 7

/-- `REGNO`: `regno = 8 × unit + index` (R76). -/
def regno (u : UnitId) (r : RegIdx) : Nat := 8 * unitBit u + regIndex r

/-- The three rows of R80: `MARK.ZERO` (match `0x00`), `MARK.ONE` (match `0xFF`), `MARK.INVALID`
(neither matches). -/
def decodeMark (w : Byte) : Instr :=
  if w = zeroMark then .markZero else if w = oneMark then .markOne else .markInvalid w

/-- `BIT` (R70): one bit. -/
def decodeBit (w : Byte) : Except DecodeError Instr :=
  if w = 0#8 then .ok (.encbit false)
  else if w = 1#8 then .ok (.encbit true)
  else .error (.bitsAboveFormat .encbit)

/-- `CMD`, `{regno[3:0], value[0]}` (R79): the register number of a `CTRL` register and bit 0 of the
value. `00001` is ENCODE and `10001` DECODE; with value bit 0 clear the command "does nothing" (R84):
it is the write of 0 to that `CTRL` (log 11). -/
def decodeCmd (w : Byte) : Except DecodeError Instr :=
  if w = 0x01#8 then .ok .encode
  else if w = 0x11#8 then .ok .decode
  else if w = 0x00#8 then .ok (.wrr .enc .ctrl 0)
  else if w = 0x10#8 then .ok (.wrr .dec .ctrl 0)
  else if w.toNat < 32 then .error (.notACommand w)
  else .error (.bitsAboveFormat .cmd)

/-- `REGNO` (R76): 4 bits, the unit in bit 3 and the index in bits 2:0. -/
def decodeRegno (k : Kind) (w : Byte) : Except DecodeError (UnitId × RegIdx) :=
  if w.toNat < 16 then .ok (unitOfBit (w.getLsbD 3), regOfIndex (w.toNat % 8))
  else .error (.bitsAboveFormat k)

/-- The unit bit of `BUFACC` (R70): only it is a pattern. -/
def decodeUnit (k : Kind) (w : Byte) : Except DecodeError UnitId :=
  if w = 0#8 then .ok .enc else if w = 1#8 then .ok .dec else .error (.bitsAboveFormat k)

/-- A kind whose whole request is one byte of pattern. -/
def decodeByteForm (k : Kind) (word : List Byte) (ops : List Nat)
    (f : Byte → Except DecodeError Instr) : Except DecodeError Instr :=
  match word, ops with
  | [w], [] => f w
  | _, _ => .error (.wrongShape k)

/-- `GROUP` (R73): eight bytes in sequence order. -/
def decodeGroupForm (k : Kind) (word : List Byte) (ops : List Nat) : Except DecodeError Instr :=
  match word, ops with
  | [g0, g1, g2, g3, g4, g5, g6, g7], [] => .ok (.dec8 ⟨g0, g1, g2, g3, g4, g5, g6, g7⟩)
  | _, _ => .error (.wrongShape k)

/-- `WRR`: a register number and a value (R151). -/
def decodeWrr (word : List Byte) (ops : List Nat) : Except DecodeError Instr :=
  match word, ops with
  | [w], [v] => (decodeRegno .wrr w).map fun x => .wrr x.1 x.2 v
  | _, _ => .error (.wrongShape .wrr)

/-- `RDR`: a register number (R150). -/
def decodeRdr (word : List Byte) (ops : List Nat) : Except DecodeError Instr :=
  match word, ops with
  | [w], [] => (decodeRegno .rdr w).map fun x => .rdr x.1 x.2
  | _, _ => .error (.wrongShape .rdr)

/-- `WRS`: a unit bit, an offset and a byte (R154). -/
def decodeWrs (word : List Byte) (ops : List Nat) : Except DecodeError Instr :=
  match word, ops with
  | [w], [a, v] =>
    if v < 256 then (decodeUnit .wrs w).map fun u => .wrs u a (BitVec.ofNat 8 v)
    else .error (.byteOutOfRange v)
  | _, _ => .error (.wrongShape .wrs)

/-- `RDS`: a unit bit and an offset (R155). -/
def decodeRds (word : List Byte) (ops : List Nat) : Except DecodeError Instr :=
  match word, ops with
  | [w], [a] => (decodeUnit .rds w).map fun u => .rds u a
  | _, _ => .error (.wrongShape .rds)

/-- `RDD`: a unit bit and an offset (R156). -/
def decodeRdd (word : List Byte) (ops : List Nat) : Except DecodeError Instr :=
  match word, ops with
  | [w], [a] => (decodeUnit .rdd w).map fun u => .rdd u a
  | _, _ => .error (.wrongShape .rdd)

/-- An 8-bit word of the table with no kind: the rows whose pattern is fully fixed first (`ENCODE`
`0x01`, `DECODE` `0x11`, `MARK.ZERO`, `MARK.ONE`), else the catch-all row `MARK.INVALID`. DESIGN
CHOICE (log 6): the table's formats overlap, and the spec tells them apart by what selects them. -/
def decodeTableByte (w : Byte) : Instr :=
  if w = 0x01#8 then .encode else if w = 0x11#8 then .decode else decodeMark w

/-- A word of the table with no kind (log 6): one byte, or the eight bytes of the one 64-bit row, `DEC8`,
in the order `tableRequest` gives them (log 18). -/
def decodeTable (word : List Byte) (ops : List Nat) : Except DecodeError Instr :=
  match word with
  | [w] => decodeByteForm .tableWord [w] ops fun w => .ok (decodeTableByte w)
  | _ => decodeGroupForm .tableWord word ops

/-- The decoder: total on every request, rejecting by name. -/
def decode (r : Request) : Except DecodeError Instr :=
  match r.kind with
  | .encbit => decodeByteForm .encbit r.word r.operands decodeBit
  | .enc8 => decodeByteForm .enc8 r.word r.operands fun w => .ok (.enc8 w)
  | .cmd => decodeByteForm .cmd r.word r.operands decodeCmd
  | .decmark => decodeByteForm .decmark r.word r.operands fun w => .ok (.decmark w)
  | .mark => decodeByteForm .mark r.word r.operands fun w => .ok (decodeMark w)
  | .dec8 => decodeGroupForm .dec8 r.word r.operands
  | .wrr => decodeWrr r.word r.operands
  | .rdr => decodeRdr r.word r.operands
  | .wrs => decodeWrs r.word r.operands
  | .rds => decodeRds r.word r.operands
  | .rdd => decodeRdd r.word r.operands
  | .tableWord => decodeTable r.word r.operands

/-- The encoder: the kind, pattern bits and operands of an instruction (R70, R72, R73, R76, R79). -/
def encode (i : Instr) : Request :=
  match i with
  | .encbit b => ⟨.encbit, [if b then 1#8 else 0#8], []⟩
  | .enc8 p => ⟨.enc8, [p], []⟩
  | .encode => ⟨.cmd, [0x01#8], []⟩
  | .decmark m => ⟨.decmark, [m], []⟩
  | .markZero => ⟨.mark, [zeroMark], []⟩
  | .markOne => ⟨.mark, [oneMark], []⟩
  | .markInvalid v => ⟨.mark, [v], []⟩
  | .dec8 g => ⟨.dec8, g.toList, []⟩
  | .decode => ⟨.cmd, [0x11#8], []⟩
  | .wrr u r v => ⟨.wrr, [BitVec.ofNat 8 (regno u r)], [v]⟩
  | .rdr u r => ⟨.rdr, [BitVec.ofNat 8 (regno u r)], []⟩
  | .wrs u a v => ⟨.wrs, [BitVec.ofNat 8 (unitBit u)], [a, v.toNat]⟩
  | .rds u a => ⟨.rds, [BitVec.ofNat 8 (unitBit u)], [a]⟩
  | .rdd u a => ⟨.rdd, [BitVec.ofNat 8 (unitBit u)], [a]⟩

/-- The `m` bytes of a number, bit 0 being the least significant bit of the first byte. DESIGN CHOICE
(log 18): the spec defines no 64-bit packing of a group (R52, R73); that the lowest byte of a table word
comes first, and so is `g[0]` of a group, is the model's reading. -/
def bytesOfWord (m w : Nat) : List Byte :=
  (List.range m).map fun i => BitVec.ofNat 8 (w >>> (8 * i))

/-- A word of spec/opcode_table.json, of `nbits` bits in whole bytes, as a request with no kind, the
lowest byte first (log 18). -/
def tableRequest (nbits w : Nat) : Request :=
  ⟨.tableWord, bytesOfWord ((nbits + 7) / 8) (w % 2 ^ nbits), []⟩

/-- The instruction the decoder reads from a word of the table. -/
def decodeTableWord (nbits w : Nat) : Option Instr :=
  match decode (tableRequest nbits w) with
  | .ok i => some i
  | .error _ => none

end Sys2Proof
end

