-- ==== Sys2Proof/Machine/Codec.lean ====
section
/-! DEFINITION. The pure functions of level L0 (R14), which transcribe the source document: ENCBIT,
ENC8 and Encode (R100 to R107), DECMARK, DEC8 and Decode (R120 to R133). The instructions and the
unit steps call them. -/

namespace Sys2Proof.Machine

/-- What a marker byte stands for: `bit(0)`, `bit(1)` or `invalid(m)` (R120). -/
inductive MarkResult where
  | bit (b : Bool)
  | invalid (v : Byte)
  deriving DecidableEq, Repr

/-- The result of `DEC8`: `ok(p)`, or `invalid(j, v)` with the position in the group and the offending
byte (R124). -/
inductive GroupResult where
  | ok (p : Byte)
  | invalid (j : Fin 8) (v : Byte)
  deriving DecidableEq, Repr

/-- The closed set of errors (R190). -/
inductive CodecError where
  /-- `LengthNotMultipleOf8` (R191): no payload. -/
  | lengthNotMultipleOf8
  /-- `InvalidMarker(value, offset)` (R192): the byte and its zero-based offset in the source. -/
  | invalidMarker (value : Byte) (offset : Nat)
  deriving DecidableEq, Repr

/-- `Result` (R13): the plain sequence, or an error. -/
inductive DecodeResult where
  | ok (x : List Byte)
  | err (e : CodecError)
  deriving DecidableEq, Repr

/-- `ENCBIT(b)` (R100). -/
def encbit (b : Bool) : Byte := if b then oneMark else zeroMark

/-- `ENC8(p)`: `g[j] = ENCBIT(p[7 - j])` (R102). -/
def enc8 (p : Byte) : Group := Group.ofFn fun j => encbit (p.getLsbD (7 - j.val))

/-- The shift form of `ENC8` (R103): emit the marker of `sr[7]`, then shift left by one; `m` markers
from the shift register `sr`. -/
def shiftOut (m : Nat) (sr : Byte) : List Byte :=
  match m with
  | 0 => []
  | m + 1 => encbit (sr.getLsbD 7) :: shiftOut m (shiftLeftOne sr)

/-- `Encode(x)`: the groups of the bytes of `x`, in order (R105). -/
def encodeSeq (x : List Byte) : List Byte :=
  match x with
  | [] => []
  | p :: rest => (enc8 p).toList ++ encodeSeq rest

/-- `DECMARK(m)` (R120): equality of all 8 bits with a constant, no value is close enough. -/
def decmark (m : Byte) : MarkResult :=
  if m = zeroMark then .bit false else if m = oneMark then .bit true else .invalid m

/-- The scan of `DEC8` (R124) over positions and their bytes, from an accumulator: shift left by one,
set bit 0 for a one marker, stop at the first byte that is no marker. -/
def scanGroup (ms : List (Fin 8 × Byte)) (acc : Byte) : GroupResult :=
  match ms with
  | [] => .ok acc
  | (j, m) :: rest =>
    match decmark m with
    | .bit false => scanGroup rest (shiftLeftOne acc)
    | .bit true => scanGroup rest (setBitZero (shiftLeftOne acc))
    | .invalid v => .invalid j v

/-- The bytes of a group with their positions, left to right. -/
def Group.positions (g : Group) : List (Fin 8 × Byte) :=
  [(0, g.g0), (1, g.g1), (2, g.g2), (3, g.g3), (4, g.g4), (5, g.g5), (6, g.g6), (7, g.g7)]

/-- `DEC8(g)`: the left-to-right scan from accumulator 0 (R124). -/
def dec8 (g : Group) : GroupResult := scanGroup (Group.positions g) 0x00#8

/-- A byte is one of the two legal markers (R72). -/
def isMark (m : Byte) : Bool := m == zeroMark || m == oneMark

/-- The plain bit a legal marker stands for: 1 for `0xFF` (R125). -/
def markBit (m : Byte) : Bool := m == oneMark

/-- The closed form of the plain byte of a group: bit `7 - j` is 1 exactly when `g[j] = 0xFF`
(R77, R125). -/
def assembleByte (g : Group) : Byte :=
  BitVec.ofBoolListBE
    [markBit g.g0, markBit g.g1, markBit g.g2, markBit g.g3,
     markBit g.g4, markBit g.g5, markBit g.g6, markBit g.g7]

/-- The parallel form of `DEC8` (R125): all eight bytes classified at once, the lowest invalid position
selected. -/
def dec8Parallel (g : Group) : GroupResult :=
  match (Group.positions g).find? (fun x => !isMark x.2) with
  | some (j, v) => .invalid j v
  | none => .ok (assembleByte g)

/-- The groups of `Decode` in order (R130), the first of them at offset `off` of the source. An error
drops the bytes decoded so far. -/
def decodeGroups (e : List Byte) (off : Nat) : DecodeResult :=
  match e with
  | g0 :: g1 :: g2 :: g3 :: g4 :: g5 :: g6 :: g7 :: rest =>
    match dec8 ⟨g0, g1, g2, g3, g4, g5, g6, g7⟩ with
    | .ok p =>
      match decodeGroups rest (off + 8) with
      | .ok x => .ok (p :: x)
      | .err err => .err err
    | .invalid j v => .err (.invalidMarker v (off + j.val))
  | _ => .ok []

/-- `Decode(e)` (R130): the length check before any byte, then the groups. -/
def decodeSeq (e : List Byte) : DecodeResult :=
  if e.length % 8 ≠ 0 then .err .lengthNotMultipleOf8 else decodeGroups e 0

/-- A well-formed expanded sequence (R74): "its length is a multiple of 8 and every byte is `0x00` or
`0xFF`". -/
def wellFormedExpanded (e : List Byte) : Bool := e.length % 8 == 0 && e.all isMark

end Sys2Proof.Machine
end

