-- ==== Sys2Proof/Machine/State.lean ====
section
/-! DEFINITION. The state of the block as plain data (R17 to R43), the reasons a step can stop, and the
state after reset (R43). -/

namespace Sys2Proof.Machine

/-- The phase of a unit (R25). -/
inductive Phase where
  | idle
  | busy
  | done
  deriving DecidableEq, Repr

/-- `DEC.sub` (R35): `check` from START until the length check has passed, then `scan`. -/
inductive Sub where
  | check
  | scan
  deriving DecidableEq, Repr

/-- `ERR_KIND` (R26). Code 3 is never produced (R75) and has no constructor (U7). -/
inductive ErrKind where
  | ok
  | lengthNotMultipleOf8
  | invalidMarker
  deriving DecidableEq, Repr

/-- A buffer: its written cells in canonical form (`Memory.wf`), offsets strictly rising. An unlisted
cell has no value of its own, so no entry can equal it; `Ops.readCell` reads it as a free value
(R39, R40, U1, U2; log 2). -/
abbrev Memory := List Host.Cell

/-- The canonical form of a buffer: offsets strictly rising. -/
abbrev Memory.wf (m : Memory) : Prop := List.Pairwise (fun x y => x.1 < y.1) m

/-- What each unit has once (R17, R27, R37): its phase, `LEN`, `OUT_LEN`, the latched length `n`, the
scan position `pos`, and its two buffers. Lengths and offsets are natural numbers (R9, R175). -/
structure UnitRegs where
  phase : Phase
  len : Nat
  outLen : Nat
  n : Nat
  pos : Nat
  src : Memory
  dst : Memory
  deriving DecidableEq, Repr

/-- The value an operation gave back: a register value (R150), a byte (R155, R156, R100), or the
result of a pure function (R102, R120, R124). -/
inductive Answer where
  | value (v : Nat)
  | byte (b : Byte)
  | group (g : Group)
  | mark (r : MarkResult)
  | plain (r : GroupResult)
  deriving DecidableEq, Repr

/-- The state. `cfg`, `answer`, `requests`, `turns`, `draws` and `epoch` are the model's own fields;
the rest are the spec's. -/
structure State where
  /-- The instance's open parameter (R8); no step changes it (log 1). -/
  cfg : Config
  /-- Unit ENC. Its error fields are hardwired to 0 and have no storage (R34). -/
  enc : UnitRegs
  /-- `ENC.k`: the markers already emitted for the byte at `ENC.pos` (R22). -/
  encK : Fin 8
  /-- Unit DEC. -/
  dec : UnitRegs
  /-- `DEC.sub` (R35). -/
  decSub : Sub
  /-- `DEC.ERR_KIND` (R26). -/
  decErrKind : ErrKind
  /-- `DEC.ERR_VALUE` (R32). -/
  decErrValue : Byte
  /-- `DEC.ERR_OFFSET` (R33). -/
  decErrOffset : Nat
  /-- What the last operation that returns a value gave back (log 9). -/
  answer : Option Answer
  /-- The operations the host has yet to issue, oldest first (R85; log 13). -/
  requests : List Request
  /-- Who moves next, oldest first; when empty, a free value chooses (log 3). -/
  turns : List Turn
  /-- How many turns the free value has chosen (log 3). -/
  draws : Nat
  /-- How many RESET events there have been; it selects the free bytes of unwritten cells (log 2). -/
  epoch : Nat
  deriving DecidableEq, Repr

/-- The reasons the machine stops with a fault. -/
inductive Fault where
  /-- Raised by a unit's turn when the unit is BUSY and none of its steps is enabled: `pos > n`, which
  no run reaches (R24, R109, R140). Safe: nothing is proved past it (log 10). -/
  | busyUnitStuck (u : UnitId)
  deriving DecidableEq, Repr

/-- The reasons an operation is refused: "the agent has no such step" (spec/93_implementation_defined.md
section 2). All are safe: nothing is proved of a run that would need the step. -/
inductive Refusal where
  /-- Raised by `exec` for an instruction with no meaning yet. Safe. -/
  | notModelled (mnemonic : String)
  /-- Raised by a host turn whose request is no operation of the table (R79, R84). Safe. -/
  | malformedRequest (e : DecodeError)
  /-- Raised by `WRR LEN` and `WRS` on a BUSY unit (R151, R154, R228, U3). Safe. -/
  | writeWhileBusy (u : UnitId)
  /-- Raised by `RDD` outside phase DONE or at or above `OUT_LEN` (R156, R229, U4). Safe. -/
  | dstNotReadable (u : UnitId)
  /-- Raised by START of ENC, `WRR LEN`, `WRS` and `RDS` when a length or offset does not fit a finite
  MAXLEN (R151, R153, R154, R155, U5). Safe. -/
  | beyondMaxLen (u : UnitId)
  /-- Raised by `WRR` of a read-only register (R151, U6). Safe. -/
  | readOnlyRegister (u : UnitId) (r : RegIdx)
  /-- Raised by `WRR` and `RDR` of register index 6 or 7 (R150, R151, U6). Safe. -/
  | noSuchRegister (u : UnitId) (r : RegIdx)
  deriving DecidableEq, Repr

/-- The registers of a unit after reset, no buffer cell written (R43, R40). -/
def UnitRegs.reset : UnitRegs :=
  { phase := .idle, len := 0, outLen := 0, n := 0, pos := 0, src := [], dst := [] }

/-- The machine right after reset (R43, R220). The spec gives every register's value; the model's own
fields start as log 1, 2, 3, 9 and 13 say. -/
def State.reset : State :=
  { cfg := Config.default
    enc := UnitRegs.reset
    encK := 0
    dec := UnitRegs.reset
    decSub := .check
    decErrKind := .ok
    decErrValue := 0x00#8
    decErrOffset := 0
    answer := none
    requests := []
    turns := []
    draws := 0
    epoch := 0 }

end Sys2Proof.Machine
end

