-- ==== Sys2Proof/Machine/Flags.lean ====
section
/-! DEFINITION. The one condition code and the status register: `ERR_KIND` (R26, R75), `STATUS` (R29),
and the error record (R75). The block has no arithmetic flag (R174). -/

namespace Sys2Proof.Machine

/-- The numeric code of an error kind (R75). -/
def errKindCode (k : ErrKind) : Byte :=
  match k with
  | .ok => 0#8
  | .lengthNotMultipleOf8 => 1#8
  | .invalidMarker => 2#8

/-- `STATUS` bits 1:0: `BUSY` in bit 0, `DONE` in bit 1 (R25, R29). -/
def phaseBits (p : Phase) : Byte :=
  match p with
  | .idle => 0#8
  | .busy => 1#8
  | .done => 2#8

/-- The whole `STATUS` register: `ERR_KIND` in bits 3:2, bits 7:4 read as 0 (R29). -/
def statusByte (p : Phase) (k : ErrKind) : Byte := (errKindCode k <<< 2) ||| phaseBits p

/-- The registers of a unit (R17: everything exists once per unit). -/
def State.unit (s : State) (u : UnitId) : UnitRegs :=
  match u with
  | .enc => s.enc
  | .dec => s.dec

/-- The state with the registers of one unit replaced. -/
def State.setUnit (s : State) (u : UnitId) (r : UnitRegs) : State :=
  match u with
  | .enc => { s with enc := r }
  | .dec => { s with dec := r }

/-- `ERR_KIND` of a unit: hardwired to 0 in ENC (R34). -/
def errKindOf (s : State) (u : UnitId) : ErrKind :=
  match u with
  | .enc => .ok
  | .dec => s.decErrKind

/-- `ERR_VALUE` of a unit: hardwired to 0 in ENC (R34). -/
def errValueOf (s : State) (u : UnitId) : Byte :=
  match u with
  | .enc => 0x00#8
  | .dec => s.decErrValue

/-- `ERR_OFFSET` of a unit: hardwired to 0 in ENC (R34). -/
def errOffsetOf (s : State) (u : UnitId) : Nat :=
  match u with
  | .enc => 0
  | .dec => s.decErrOffset

/-- `STATUS` of a unit (R29). -/
def statusOf (s : State) (u : UnitId) : Byte := statusByte (s.unit u).phase (errKindOf s u)

end Sys2Proof.Machine
end

