-- ==== Sys2Proof/Machine/Operands.lean ====
section
/-! DEFINITION. How offsets and lengths are assembled (R78) and which of them an instance can hold
(R8, R9). All are unsigned and exact: nothing wraps or truncates (R175). -/

namespace Sys2Proof.Machine

/-- A length `m` is representable: `m <= MAXLEN` (R8, R30). -/
def fits (c : Config) (m : Nat) : Bool :=
  match c.maxLen with
  | none => true
  | some x => decide (m ≤ x)

/-- An offset `a` names a cell of a buffer: `a < MAXLEN` (R37, R59). -/
def inRange (c : Config) (a : Nat) : Bool :=
  match c.maxLen with
  | none => true
  | some x => decide (a < x)

/-- `OFFSET_W`, "the least `w` with `MAXLEN < 2^w`" (R9). There is no width when `MAXLEN = ∞`, where
"these registers hold natural numbers". -/
def offsetW (c : Config) : Option Nat :=
  match c.maxLen with
  | none => none
  | some 0 => some 0
  | some (x + 1) => some (Nat.log2 (x + 1) + 1)

/-- The ENC write offset `8 × pos + k` (R78, R110). -/
def encWriteOffset (pos : Nat) (k : Fin 8) : Nat := 8 * pos + k.val

/-- The ENC result length `8 × n` (R78, R111). -/
def encOutLen (n : Nat) : Nat := 8 * n

/-- The bit of the plain byte that marker `k` stands for: `7 - k` (R22, R50). -/
def encBitIndex (k : Fin 8) : Nat := 7 - k.val

/-- The DEC read offset `pos + j` (R78, R136). -/
def decReadOffset (pos : Nat) (j : Fin 8) : Nat := pos + j.val

/-- The DEC write offset `pos div 8` (R78, R136). -/
def decWriteOffset (pos : Nat) : Nat := pos / 8

/-- The DEC result length `n div 8` (R78, R137). -/
def decOutLen (n : Nat) : Nat := n / 8

/-- The DEC error offset `pos + j`, absolute in the source sequence (R33, R78, R136). -/
def decErrOffset (pos : Nat) (j : Fin 8) : Nat := pos + j.val

end Sys2Proof.Machine
end

