-- ==== Sys2Proof/Machine/Ops.lean ====
section
/-! DEFINITION. The named operations over buffers and registers: cells (R37 to R40), register reads
(R27, R150), START (R153), recording an error (R198) and the RESET event (R220). -/

namespace Sys2Proof.Machine

/-- The value of a written cell; no value for an unwritten one. -/
def Memory.get? (m : Memory) (a : Nat) : Option Byte :=
  match m with
  | [] => none
  | (b, v) :: rest => if a = b then some v else Memory.get? rest a

/-- Write one cell, keeping the offsets strictly rising. -/
def Memory.set (m : Memory) (a : Nat) (v : Byte) : Memory :=
  match m with
  | [] => [(a, v)]
  | (b, w) :: rest =>
    if a < b then (a, v) :: (b, w) :: rest
    else if a = b then (a, v) :: rest
    else (b, w) :: Memory.set rest a v

/-- One of the two buffers of a unit (R37). -/
def UnitRegs.buf (r : UnitRegs) (b : Buf) : Memory :=
  match b with
  | .src => r.src
  | .dst => r.dst

/-- The byte a cell holds: the last byte written, or an unspecified byte if none was written since
reset (R39, R40, U1, U2): a free value, the same at every read until the next reset. -/
def readCell (s : State) (u : UnitId) (b : Buf) (a : Nat) : Byte :=
  (Memory.get? ((s.unit u).buf b) a).getD (Config.unwrittenByte s.epoch u b a)

/-- `u.SRC[a] <- v`. -/
def writeSrc (s : State) (u : UnitId) (a : Nat) (v : Byte) : State :=
  s.setUnit u { s.unit u with src := Memory.set (s.unit u).src a v }

/-- `MemWrite(u.DST, a, 1, v)` (R12). -/
def writeDst (s : State) (u : UnitId) (a : Nat) (v : Byte) : State :=
  s.setUnit u { s.unit u with dst := Memory.set (s.unit u).dst a v }

/-- `u.b[0 ..< m]`, the sequence in the first `m` cells of a buffer (R11, R51). -/
def readSeq (s : State) (u : UnitId) (b : Buf) (m : Nat) : List Byte :=
  (List.range m).map (readCell s u b)

/-- `MemRead(DEC.SRC, pos, 8)`: `g[j] = SRC[pos + j]` (R52, R136). -/
def readGroup (s : State) (pos : Nat) : Group :=
  Group.ofFn fun j => readCell s .dec .src (decReadOffset pos j)

/-- The value of a register, if the index names one (R27, R150): `CTRL` reads 0 (R28), the error
fields of ENC read 0 (R34). -/
def readReg (s : State) (u : UnitId) (r : RegIdx) : Option Nat :=
  match r with
  | .ctrl => some 0
  | .status => some (statusOf s u).toNat
  | .len => some (s.unit u).len
  | .outLen => some (s.unit u).outLen
  | .errValue => some (errValueOf s u).toNat
  | .errOffset => some (errOffsetOf s u)
  | .none6 => none
  | .none7 => none

/-- The value an operation gives back to whoever asked (log 9). -/
def answered (s : State) (a : Answer) : State := { s with answer := some a }

/-- What START does to the registers both units have: `u.n <- u.LEN ; u.pos <- 0 ; u.OUT_LEN <- 0` and
phase BUSY (R153). -/
def startRegs (r : UnitRegs) : UnitRegs :=
  { r with phase := .busy, n := r.len, pos := 0, outLen := 0 }

/-- `START u` (R153): ignored in BUSY; refused for ENC when the result would not fit; else the
operation begins, the previous result and error record cleared, in one atomic step. -/
def startUnit (u : UnitId) (s : State) : Host.Outcome State Fault Refusal :=
  if (s.unit u).phase = .busy then .next s
  else
    match u with
    | .enc =>
      if fits s.cfg (encOutLen s.enc.len) then
        .next { s with enc := startRegs s.enc, encK := 0 }
      else .refused (.beyondMaxLen .enc)
    | .dec =>
      .next { s with
        dec := startRegs s.dec
        decSub := .check
        decErrKind := .ok
        decErrValue := 0x00#8
        decErrOffset := 0 }

/-- `raise K(info)` of unit DEC in one atomic step (R198): the record written, `OUT_LEN <- 0`, phase
DONE. It is all the exception entry the block has; there is no saved state, no vector and no return
(R201), and the next START clears the record (`startUnit`). -/
def raiseError (e : CodecError) (s : State) : State :=
  match e with
  | .lengthNotMultipleOf8 =>
    { s with
      dec := { s.dec with phase := .done, outLen := 0 }
      decErrKind := .lengthNotMultipleOf8
      decErrValue := 0x00#8
      decErrOffset := 0 }
  | .invalidMarker v a =>
    { s with
      dec := { s.dec with phase := .done, outLen := 0 }
      decErrKind := .invalidMarker
      decErrValue := v
      decErrOffset := a }

/-- The RESET event (R220): every register of both units at its reset value, every buffer cell
unspecified "whether or not it held a known byte before", in any phase (R221). What the host holds
and the instance's configuration are no state of the units and stay (log 12). -/
def resetEvent (s : State) : State :=
  { State.reset with
    cfg := s.cfg
    answer := s.answer
    requests := s.requests
    turns := s.turns
    draws := s.draws
    epoch := s.epoch + 1 }

end Sys2Proof.Machine
end

