-- ==== Sys2Proof/Machine/Decoder.lean ====
section
/-! DEFINITION. The decoder family (spec/41_decode.md): the meanings of DECMARK, the three marker codes,
DEC8 and DECODE, and the steps of unit DEC (R135 to R137, R140). -/

namespace Sys2Proof.Machine

/-- `DECMARK` (R120): what the byte stands for is given back; nothing else changes. -/
def execDecmark (m : Byte) (s : State) : Host.Outcome State Fault Refusal :=
  .next (answered s (.mark (decmark m)))

/-- `MARK.ZERO` (R121): the pattern `00000000` stands for bit 0. -/
def execMarkZero (s : State) : Host.Outcome State Fault Refusal :=
  .next (answered s (.mark (decmark zeroMark)))

/-- `MARK.ONE` (R121): the pattern `11111111` stands for bit 1. -/
def execMarkOne (s : State) : Host.Outcome State Fault Refusal :=
  .next (answered s (.mark (decmark oneMark)))

/-- `MARK.INVALID` (R122): every other pattern is invalid, and the value carried is the byte itself. -/
def execMarkInvalid (v : Byte) (s : State) : Host.Outcome State Fault Refusal :=
  .next (answered s (.mark (decmark v)))

/-- `DEC8` (R124): the plain byte of the group, or its first invalid position, is given back; nothing
else changes. -/
def execDec8 (g : Group) (s : State) : Host.Outcome State Fault Refusal :=
  .next (answered s (.plain (dec8 g)))

/-- `DECODE` (R134, R79): `CMD` `10001`, START of unit DEC (R153). The unit then performs its steps
(R140), one at each turn of its own (log 8). -/
def execDecode (s : State) : Host.Outcome State Fault Refusal := startUnit .dec s

/-- DEC check step (R135): the length error, or on to SCAN. It reads no buffer cell. -/
def decCheck (s : State) : State :=
  if s.dec.n % 8 ≠ 0 then raiseError .lengthNotMultipleOf8 s else { s with decSub := .scan }

/-- DEC group step (R136): one whole group decoded into `DST[pos div 8]`, or the marker error with the
absolute offset. -/
def decGroup (s : State) : State :=
  match dec8 (readGroup s s.dec.pos) with
  | .ok p =>
    let s1 := writeDst s .dec (decWriteOffset s.dec.pos) p
    { s1 with dec := { s1.dec with pos := s.dec.pos + 8 } }
  | .invalid j v => raiseError (.invalidMarker v (decErrOffset s.dec.pos j)) s

/-- DEC final step (R137): `OUT_LEN <- n div 8`, `STATUS <- 0x02`, in one atomic step. -/
def decFinal (s : State) : State :=
  { s with
    dec := { s.dec with phase := .done, outLen := decOutLen s.dec.n }
    decErrKind := .ok }

/-- A turn of unit DEC (R140): in phase BUSY exactly one of the check, group and final steps; in IDLE
and DONE the unit has no step, and the turn passes (log 4). -/
def decTurn (s : State) : Host.Outcome State Fault Refusal :=
  match s.dec.phase, s.decSub with
  | .busy, .check => .next (decCheck s)
  | .busy, .scan =>
    if s.dec.pos < s.dec.n then .next (decGroup s)
    else if s.dec.pos = s.dec.n then .next (decFinal s)
    else .fault (.busyUnitStuck .dec)
  | .idle, _ => .next s
  | .done, _ => .next s

end Sys2Proof.Machine
end

