-- ==== Sys2Proof/Machine/Encoder.lean ====
section
/-! DEFINITION. The encoder family (spec/40_encode.md): the meanings of ENCBIT, ENC8 and ENCODE, and the
steps of unit ENC (R109 to R111). -/

namespace Sys2Proof.Machine

/-- `ENCBIT` (R100): the marker of the bit is given back; nothing else changes. As for all rows of level
L0, the row is a request that evaluates the pure function (log 7). -/
def execEncbit (b : Bool) (s : State) : Host.Outcome State Fault Refusal :=
  .next (answered s (.byte (encbit b)))

/-- `ENC8` (R102): the group of the byte is given back; nothing else changes. -/
def execEnc8 (p : Byte) (s : State) : Host.Outcome State Fault Refusal :=
  .next (answered s (.group (enc8 p)))

/-- `ENCODE` (R108, R79): `CMD` `00001`, START of unit ENC (R153). The unit then performs its steps
(R109), one at each turn of its own (log 8). -/
def execEncode (s : State) : Host.Outcome State Fault Refusal := startUnit .enc s

/-- ENC emit step (R110): one marker of the byte at `pos` goes to `DST[8 × pos + k]`. -/
def encEmit (s : State) : State :=
  let p := readCell s .enc .src s.enc.pos
  let s1 := writeDst s .enc (encWriteOffset s.enc.pos s.encK) (encbit (p.getLsbD (encBitIndex s.encK)))
  if s.encK = 7 then { s1 with enc := { s1.enc with pos := s.enc.pos + 1 }, encK := 0 }
  else { s1 with encK := s.encK + 1 }

/-- ENC final step (R111): `OUT_LEN <- 8 × n` and phase DONE, in one atomic step. -/
def encFinal (s : State) : State :=
  { s with enc := { s.enc with phase := .done, outLen := encOutLen s.enc.n } }

/-- A turn of unit ENC (R109): in phase BUSY the emit step if `pos < n`, the final step if `pos = n`;
in IDLE and DONE "the unit has no step", and the turn passes (log 4). -/
def encTurn (s : State) : Host.Outcome State Fault Refusal :=
  match s.enc.phase with
  | .busy =>
    if s.enc.pos < s.enc.n then .next (encEmit s)
    else if s.enc.pos = s.enc.n then .next (encFinal s)
    else .fault (.busyUnitStuck .enc)
  | .idle => .next s
  | .done => .next s

end Sys2Proof.Machine
end

