-- ==== Sys2Proof/Machine/HostAccess.lean ====
section
/-! DEFINITION. The host access family (spec/42_host_access.md): the meanings of WRR, RDR, WRS, RDS and
RDD, with the refusals of R36. -/

namespace Sys2Proof.Machine

/-- A write of `LEN` (R151): in IDLE and DONE, for a value that fits; it touches no held result. -/
def writeLen (u : UnitId) (v : Nat) (s : State) : Host.Outcome State Fault Refusal :=
  if (s.unit u).phase = .busy then .refused (.writeWhileBusy u)
  else if fits s.cfg v then .next (s.setUnit u { s.unit u with len := v })
  else .refused (.beyondMaxLen u)

/-- A write of `CTRL` (R28, R151): bit 0 set is START, clear is no effect; the bits above are ignored. -/
def writeCtrl (u : UnitId) (v : Nat) (s : State) : Host.Outcome State Fault Refusal :=
  if v.testBit 0 then startUnit u s else .next s

/-- `WRR reg, v` (R151). -/
def execWrr (u : UnitId) (r : RegIdx) (v : Nat) (s : State) : Host.Outcome State Fault Refusal :=
  match r with
  | .ctrl => writeCtrl u v s
  | .len => writeLen u v s
  | .status => .refused (.readOnlyRegister u .status)
  | .outLen => .refused (.readOnlyRegister u .outLen)
  | .errValue => .refused (.readOnlyRegister u .errValue)
  | .errOffset => .refused (.readOnlyRegister u .errOffset)
  | .none6 => .refused (.noSuchRegister u .none6)
  | .none7 => .refused (.noSuchRegister u .none7)

/-- `RDR reg` (R150): the register's value, in every phase, with no side effect. -/
def execRdr (u : UnitId) (r : RegIdx) (s : State) : Host.Outcome State Fault Refusal :=
  match readReg s u r with
  | some v => .next (answered s (.value v))
  | none => .refused (.noSuchRegister u r)

/-- `WRS u, a, v` (R154): in IDLE and DONE, below MAXLEN; no value is rejected. -/
def execWrs (u : UnitId) (a : Nat) (v : Byte) (s : State) : Host.Outcome State Fault Refusal :=
  if (s.unit u).phase = .busy then .refused (.writeWhileBusy u)
  else if inRange s.cfg a then .next (writeSrc s u a v)
  else .refused (.beyondMaxLen u)

/-- `RDS u, a` (R155): in every phase, below MAXLEN. -/
def execRds (u : UnitId) (a : Nat) (s : State) : Host.Outcome State Fault Refusal :=
  if inRange s.cfg a then .next (answered s (.byte (readCell s u .src a)))
  else .refused (.beyondMaxLen u)

/-- `RDD u, a` (R156): in phase DONE and below `OUT_LEN`, else refused. -/
def execRdd (u : UnitId) (a : Nat) (s : State) : Host.Outcome State Fault Refusal :=
  if (s.unit u).phase = .done ∧ a < (s.unit u).outLen then
    .next (answered s (.byte (readCell s u .dst a)))
  else .refused (.dstNotReadable u)

end Sys2Proof.Machine
end

