-- ==== Sys2Proof/Machine/Dispatch.lean ====
section
/-! DEFINITION. One arm for each constructor of `Instr`. -/

namespace Sys2Proof.Machine

def exec (i : Instr) (s : State) : Host.Outcome State Fault Refusal :=
  match i with
  | .encbit b => Sys2Proof.Machine.execEncbit b s
  | .enc8 p => Sys2Proof.Machine.execEnc8 p s
  | .encode => Sys2Proof.Machine.execEncode s
  | .decmark m => Sys2Proof.Machine.execDecmark m s
  | .markZero => Sys2Proof.Machine.execMarkZero s
  | .markOne => Sys2Proof.Machine.execMarkOne s
  | .markInvalid v => Sys2Proof.Machine.execMarkInvalid v s
  | .dec8 g => Sys2Proof.Machine.execDec8 g s
  | .decode => Sys2Proof.Machine.execDecode s
  | .wrr u r v => Sys2Proof.Machine.execWrr u r v s
  | .rdr u r => Sys2Proof.Machine.execRdr u r s
  | .wrs u a v => Sys2Proof.Machine.execWrs u a v s
  | .rds u a => Sys2Proof.Machine.execRds u a s
  | .rdd u a => Sys2Proof.Machine.execRdd u a s

end Sys2Proof.Machine
end

