-- ==== Sys2Proof/Machine/Turns.lean ====
section
/-! DEFINITION. Who moves next and what each agent's turn does (R17): the host issues its next
operation, a unit takes its enabled step, the platform resets. -/

namespace Sys2Proof.Machine

/-- The agent that moves next, and the state with that turn taken: the oldest of `State.turns`, or when
there is none the free value's choice (R17; log 3). -/
def nextTurn (s : State) : Turn × State :=
  match s.turns with
  | t :: rest => (t, { s with turns := rest })
  | [] => (Config.turnAt s.draws, { s with draws := s.draws + 1 })

/-- A turn of the host: it issues its oldest pending operation (R62); with none the turn passes
(log 4). A request that is no operation of the table is refused by name. -/
def hostTurn (s : State) : Host.Outcome State Fault Refusal :=
  match s.requests with
  | [] => .next s
  | r :: rest =>
    match decode r with
    | .ok i => exec i { s with requests := rest }
    | .error e => .refused (.malformedRequest e)

/-- The turn of an agent. -/
def takeTurn (t : Turn) (s : State) : Host.Outcome State Fault Refusal :=
  match t with
  | .host => hostTurn s
  | .enc => encTurn s
  | .dec => decTurn s
  | .platform => .next (resetEvent s)

/-- The state in which the very next step is the host issuing the request `r`. -/
def issueNext (s : State) (r : Request) : State :=
  { s with requests := r :: s.requests, turns := .host :: s.turns }

end Sys2Proof.Machine
end

