-- ==== Sys2Proof/Machine/Step.lean ====
section
/-! DEFINITION. One step of the machine: one atomic move of one agent (R56). -/

namespace Sys2Proof.Machine

/-- One step: the agent that moves next takes its turn. -/
def step (s : State) : Host.Outcome State Fault Refusal :=
  takeTurn (nextTurn s).1 (nextTurn s).2

/-- `s` with a word of the table as the host's next operation and the host as the next to move, so that
the next step runs exactly it (log 6, log 13). -/
def State.withFetchWord (s : State) (nbits w : Nat) : State := issueNext s (tableRequest nbits w)

end Sys2Proof.Machine
end

