-- ==== Sys2Proof/Machine/Pseudo.lean ====
section
/-! DEFINITION. The pseudo-operations of a host program (R86) as lists of instructions, the textual form
of a host program line (R85), and running a list of host operations one after another (R62). -/

namespace Sys2Proof.Machine

/-- `START <unit>`: `WRR <unit>.CTRL, 1` (R86). -/
def pseudoStart (u : UnitId) : List Instr := [.wrr u .ctrl 1]

/-- `SETLEN <unit>, <n>`: `WRR <unit>.LEN, <n>` (R86). -/
def pseudoSetLen (u : UnitId) (n : Nat) : List Instr := [.wrr u .len n]

/-- `WRS <unit>, a, b0`, `WRS <unit>, a+1, b1`, ...: the bytes from offset `a` on. -/
def storeBytes (u : UnitId) (a : Nat) (bs : List Byte) : List Instr :=
  match bs with
  | [] => []
  | b :: rest => .wrs u a b :: storeBytes u (a + 1) rest

/-- `LOAD <unit>, [b0, ..., b(m-1)]` (R86). -/
def pseudoLoad (u : UnitId) (bs : List Byte) : List Instr :=
  storeBytes u 0 bs ++ pseudoSetLen u bs.length

/-- One poll of `WAIT <unit>`: `RDR <unit>.STATUS -> s` (R86). -/
def pseudoPoll (u : UnitId) : List Instr := [.rdr u .status]

/-- `WAIT` is over when the status read has `s[1] = 1` (DONE) (R86). -/
def waitOver (a : Option Answer) : Bool :=
  match a with
  | some (.value v) => v.testBit 1
  | _ => false

/-- `RESULT <unit>`, once `OUT_LEN` has read as `m`: the read of `OUT_LEN`, then of `m` cells (R86). -/
def pseudoResult (u : UnitId) (m : Nat) : List Instr :=
  .rdr u .outLen :: (List.range m).map fun a => .rdd u a

/-- `RDD ENC, i -> v`, `WRS DEC, i, v` for the values read, from offset `a` on. -/
def copyBytes (a : Nat) (vs : List Byte) : List Instr :=
  match vs with
  | [] => []
  | v :: rest => .rdd .enc a :: .wrs .dec a v :: copyBytes (a + 1) rest

/-- `COPY ENC -> DEC`, once the cells of `ENC.DST` have read as `vs` (R86). -/
def pseudoCopy (vs : List Byte) : List Instr :=
  .rdr .enc .outLen :: (copyBytes 0 vs ++ pseudoSetLen .dec vs.length)

/-- The host's operations one after another, with no unit step between. -/
def runOps (is : List Instr) (s : State) : Host.Outcome State Fault Refusal :=
  match is with
  | [] => .next s
  | i :: rest =>
    match exec i s with
    | .next t => runOps rest t
    | .fault e => .fault e
    | .refused e => .refused e

/-- A hexadecimal digit. -/
def hexDigit (n : Nat) : Char := "0123456789ABCDEF".toList.getD n '0'

/-- A byte as `0xNN` (R10). -/
def byteText (b : Byte) : String :=
  String.ofList ['0', 'x', hexDigit (b.toNat / 16), hexDigit (b.toNat % 16)]

/-- A unit's name (R85). -/
def unitText (u : UnitId) : String :=
  match u with
  | .enc => "ENC"
  | .dec => "DEC"

/-- A register's name (R27, R76); the indices with no name are written as their regno (R85). -/
def regText (u : UnitId) (r : RegIdx) : String :=
  match r with
  | .ctrl => unitText u ++ ".CTRL"
  | .status => unitText u ++ ".STATUS"
  | .len => unitText u ++ ".LEN"
  | .outLen => unitText u ++ ".OUT_LEN"
  | .errValue => unitText u ++ ".ERR_VALUE"
  | .errOffset => unitText u ++ ".ERR_OFFSET"
  | .none6 => toString (regno u .none6)
  | .none7 => toString (regno u .none7)

/-- A line of a host program (R85): the functional form for the pure functions, `START` for the two
commands (R86). -/
def instrText (i : Instr) : String :=
  match i with
  | .encbit b => "ENCBIT(" ++ (if b then "1" else "0") ++ ")"
  | .enc8 p => "ENC8(" ++ byteText p ++ ")"
  | .encode => "START ENC"
  | .decmark m => "DECMARK(" ++ byteText m ++ ")"
  | .markZero => "DECMARK(" ++ byteText zeroMark ++ ")"
  | .markOne => "DECMARK(" ++ byteText oneMark ++ ")"
  | .markInvalid v => "DECMARK(" ++ byteText v ++ ")"
  | .dec8 g => "DEC8([" ++ String.intercalate ", " (g.toList.map byteText) ++ "])"
  | .decode => "START DEC"
  | .wrr u r v => "WRR " ++ regText u r ++ ", " ++ toString v
  | .rdr u r => "RDR " ++ regText u r
  | .wrs u a v => "WRS " ++ unitText u ++ ", " ++ toString a ++ ", " ++ byteText v
  | .rds u a => "RDS " ++ unitText u ++ ", " ++ toString a
  | .rdd u a => "RDD " ++ unitText u ++ ", " ++ toString a

end Sys2Proof.Machine
end

