-- ==== Sys2Proof/Safety.lean ====
section
/-! DEFINITION. What counts as a safe state (`State.Inv`), and what it means that a unit runs on, or
holds the result of, a source sequence: the terms the claims are stated in. -/

namespace Sys2Proof.Machine

/-- Every written cell lies below MAXLEN (R37, R59). -/
abbrev cellsInRange (c : Config) (m : Memory) : Prop := ∀ x ∈ m, inRange c x.1 = true

/-- The cells `0 ..< m` of a buffer have been written. -/
abbrev writtenBelow (mem : Memory) (m : Nat) : Prop := ∀ a < m, (Memory.get? mem a).isSome = true

/-- The four buffers are in canonical form and lie below MAXLEN. -/
abbrev BuffersOk (s : State) : Prop :=
  Memory.wf s.enc.src ∧ Memory.wf s.enc.dst ∧ Memory.wf s.dec.src ∧ Memory.wf s.dec.dst ∧
  cellsInRange s.cfg s.enc.src ∧ cellsInRange s.cfg s.enc.dst ∧
  cellsInRange s.cfg s.dec.src ∧ cellsInRange s.cfg s.dec.dst

/-- Unit ENC: lengths fit (R8, R175), `pos <= n` (R24), the result registers by phase (R25, R31), the
refinement invariant of phase BUSY (R112), and in DONE every readable cell a written marker (R101). -/
abbrev EncOk (s : State) : Prop :=
  fits s.cfg s.enc.len = true ∧ fits s.cfg (encOutLen s.enc.n) = true ∧ s.enc.pos ≤ s.enc.n ∧
  (s.enc.pos = s.enc.n → s.encK = 0) ∧
  (s.enc.phase = .idle → s.enc.n = 0 ∧ s.enc.outLen = 0) ∧
  (s.enc.phase = .busy →
    s.enc.outLen = 0 ∧
    writtenBelow s.enc.dst (encWriteOffset s.enc.pos s.encK) ∧
    readSeq s .enc .dst (encWriteOffset s.enc.pos s.encK) =
      (encodeSeq (readSeq s .enc .src s.enc.n)).take (encWriteOffset s.enc.pos s.encK)) ∧
  (s.enc.phase = .done →
    s.enc.outLen = encOutLen s.enc.n ∧ s.enc.pos = s.enc.n ∧
    writtenBelow s.enc.dst s.enc.outLen ∧
    (readSeq s .enc .dst s.enc.outLen).all isMark = true)

/-- Unit DEC: lengths fit, `pos` a multiple of 8 and `pos <= n` (R24), the error record by kind (R26,
R32, R33), the refinement invariant of phase BUSY (R138), and the results of DONE (R31, R134). -/
abbrev DecOk (s : State) : Prop :=
  fits s.cfg s.dec.len = true ∧ fits s.cfg s.dec.n = true ∧ s.dec.pos ≤ s.dec.n ∧ s.dec.pos % 8 = 0 ∧
  (s.dec.phase ≠ .done → s.decErrKind = .ok ∧ s.dec.outLen = 0) ∧
  (s.decErrKind ≠ .invalidMarker → s.decErrValue = 0x00#8 ∧ s.decErrOffset = 0) ∧
  (s.dec.phase = .idle → s.dec.n = 0 ∧ s.decSub = .check) ∧
  (s.dec.phase = .busy → s.decSub = .check → s.dec.pos = 0) ∧
  (s.dec.phase = .busy → s.decSub = .scan →
    s.dec.n % 8 = 0 ∧
    writtenBelow s.dec.dst (decWriteOffset s.dec.pos) ∧
    decodeSeq (readSeq s .dec .src s.dec.pos) =
      .ok (readSeq s .dec .dst (decWriteOffset s.dec.pos))) ∧
  (s.dec.phase = .done → s.decErrKind = .ok →
    s.dec.n % 8 = 0 ∧ s.dec.pos = s.dec.n ∧ s.dec.outLen = decOutLen s.dec.n ∧
    writtenBelow s.dec.dst s.dec.outLen) ∧
  (s.dec.phase = .done → s.decErrKind = .lengthNotMultipleOf8 →
    s.dec.n % 8 ≠ 0 ∧ s.dec.outLen = 0) ∧
  (s.dec.phase = .done → s.decErrKind = .invalidMarker →
    s.dec.n % 8 = 0 ∧ s.dec.outLen = 0 ∧ s.decErrOffset < s.dec.n ∧
    isMark s.decErrValue = false)

/-- The invariant of the machine: it holds at reset and every step keeps it. -/
abbrev State.Inv (s : State) : Prop := BuffersOk s ∧ EncOk s ∧ DecOk s

/-- Unit ENC is running an ENCODE of the source sequence `x`: BUSY, with `x` latched (R35, R108). -/
abbrev EncRunning (x : List Byte) (s : State) : Prop :=
  s.enc.phase = .busy ∧ s.enc.n = x.length ∧ readSeq s .enc .src x.length = x

/-- Unit ENC holds the result of an ENCODE of `x` (R108). -/
abbrev EncResult (x : List Byte) (s : State) : Prop :=
  statusOf s .enc = 0x02#8 ∧ s.enc.outLen = 8 * x.length ∧
  readSeq s .enc .dst (8 * x.length) = encodeSeq x ∧
  errValueOf s .enc = 0x00#8 ∧ errOffsetOf s .enc = 0

/-- Unit DEC is running a DECODE of the source sequence `e`: BUSY, with `e` latched (R35, R134). -/
abbrev DecRunning (e : List Byte) (s : State) : Prop :=
  s.dec.phase = .busy ∧ s.dec.n = e.length ∧ readSeq s .dec .src e.length = e

/-- Unit DEC holds the result of a DECODE of `e`: the row of R134's table that `Decode(e)` selects. -/
def DecResult (e : List Byte) (s : State) : Prop :=
  match decodeSeq e with
  | .ok x =>
    statusOf s .dec = 0x02#8 ∧ s.dec.outLen = e.length / 8 ∧ s.decErrValue = 0x00#8 ∧
    s.decErrOffset = 0 ∧ readSeq s .dec .dst (e.length / 8) = x
  | .err .lengthNotMultipleOf8 =>
    statusOf s .dec = 0x06#8 ∧ s.dec.outLen = 0 ∧ s.decErrValue = 0x00#8 ∧ s.decErrOffset = 0
  | .err (.invalidMarker v a) =>
    statusOf s .dec = 0x0A#8 ∧ s.dec.outLen = 0 ∧ s.decErrValue = v ∧ s.decErrOffset = a

/-- How many steps of unit DEC a DECODE of `e` takes (R139): 1 for a bad length, `1 + f + 1` when the
first invalid marker lies in group `f`, else `1 + n div 8 + 1`. -/
def decStepCount (e : List Byte) : Nat :=
  match decodeSeq e with
  | .ok _ => 1 + e.length / 8 + 1
  | .err .lengthNotMultipleOf8 => 1
  | .err (.invalidMarker _ a) => 1 + a / 8 + 1

/-- `m` turns of one agent, one after another. -/
def repeatTurn (t : Turn) (m : Nat) (s : State) : Host.Outcome State Fault Refusal :=
  match m with
  | 0 => .next s
  | m + 1 =>
    match takeTurn t s with
    | .next s' => repeatTurn t m s'
    | .fault e => .fault e
    | .refused e => .refused e

end Sys2Proof.Machine
end

