-- ==== Sys2Proof/Certificates/Slice0/Obligations.lean ====
section
/-! DEFINITION. The statements for the provers. Each docstring names the rule of spec/ it formalises. -/

open Sys2Proof Sys2Proof.Machine

/-! ## The pure functions and their instructions -/

/-- R100. `ENCBIT` gives `0xFF` for 1 and `0x00` for 0, changes nothing else, is total and injective. -/
def Obligations.EncbitMapsBitToMarker : Prop :=
  (∀ (b : Bool) (s : State),
    exec (.encbit b) s =
      .next { s with answer := some (.byte (if b = true then 0xFF#8 else 0x00#8)) }) ∧
  (∀ b c : Bool, encbit b = encbit c → b = c)

/-- R102. `ENC8` gives the group whose position `j` is the marker of bit `7 - j`, eight bytes, changes
nothing else, and is injective; with the rule's corner cases and example. -/
def Obligations.Enc8SerializesMsbFirst : Prop :=
  (∀ (p : Byte) (s : State),
    exec (.enc8 p) s = .next { s with answer := some (.group (enc8 p)) }) ∧
  (∀ (p : Byte) (j : Fin 8),
    (enc8 p).get j = if p.getLsbD (7 - j.val) = true then 0xFF#8 else 0x00#8) ∧
  (∀ p : Byte, (enc8 p).toList.length = 8) ∧
  (∀ p q : Byte, enc8 p = enc8 q → p = q) ∧
  (enc8 0x00#8).toList = List.replicate 8 0x00#8 ∧
  (enc8 0xFF#8).toList = List.replicate 8 0xFF#8 ∧
  (enc8 0x80#8).toList = 0xFF#8 :: List.replicate 7 0x00#8 ∧
  (enc8 0x01#8).toList = List.replicate 7 0x00#8 ++ [0xFF#8] ∧
  (enc8 0xB0#8).toList = [0xFF#8, 0x00#8, 0xFF#8, 0xFF#8, 0x00#8, 0x00#8, 0x00#8, 0x00#8]

/-- R103. The shift form of the serializer gives the same group: after `j` shifts `sr[7]` is `p[7 - j]`. -/
def Obligations.Enc8EqualsShiftForm : Prop :=
  ∀ p : Byte,
    shiftOut 8 p = (enc8 p).toList ∧
    ∀ j : Fin 8, (shiftLeftOne^[j.val] p).getLsbD 7 = p.getLsbD (7 - j.val)

/-- R120. `DECMARK` classifies by equality with the two constants and changes nothing else. -/
def Obligations.DecmarkClassifiesByEquality : Prop :=
  ∀ (m : Byte) (s : State),
    exec (.decmark m) s =
      .next { s with answer := some (.mark
        (if m = 0x00#8 then .bit false else if m = 0xFF#8 then .bit true else .invalid m)) }

/-- R121, R122. The three marker codes: `0x00` is bit 0, `0xFF` is bit 1, and every other byte is
invalid and carried unchanged; nothing else changes. -/
def Obligations.MarkCodesGiveTheirBit : Prop :=
  ∀ s : State,
    exec .markZero s = .next { s with answer := some (.mark (.bit false)) } ∧
    exec .markOne s = .next { s with answer := some (.mark (.bit true)) } ∧
    (∀ v : Byte, WellFormed (.markInvalid v) = true →
      exec (.markInvalid v) s = .next { s with answer := some (.mark (.invalid v)) }) ∧
    decmark 0x00#8 = .bit false ∧ decmark 0xFF#8 = .bit true ∧
    (∀ m : Byte, 0x01#8 ≤ m → m ≤ 0xFE#8 → decmark m = .invalid m)

/-- R123. `DECMARK(ENCBIT(b)) = bit(b)`. -/
def Obligations.DecmarkInvertsEncbit : Prop :=
  ∀ b : Bool, decmark (encbit b) = .bit b

/-- R124. `DEC8` gives the byte whose bit `7 - j` is 1 exactly for a `0xFF` at position `j` when all
eight are markers, else the least position that is no marker with its byte; nothing else changes. -/
def Obligations.Dec8GivesByteOrFirstInvalid : Prop :=
  (∀ (g : Group) (s : State),
    exec (.dec8 g) s = .next { s with answer := some (.plain (dec8 g)) }) ∧
  (∀ (g : Group) (p : Byte),
    dec8 g = .ok p ↔
      ∀ j : Fin 8, (g.get j = 0x00#8 ∨ g.get j = 0xFF#8) ∧
        (p.getLsbD (7 - j.val) = true ↔ g.get j = 0xFF#8)) ∧
  (∀ (g : Group) (j : Fin 8) (v : Byte),
    dec8 g = .invalid j v ↔
      g.get j = v ∧ v ≠ 0x00#8 ∧ v ≠ 0xFF#8 ∧
        ∀ i : Fin 8, i < j → g.get i = 0x00#8 ∨ g.get i = 0xFF#8)

/-- R125. The sequential scan and the parallel form with priority selection are one function. -/
def Obligations.Dec8EqualsParallelForm : Prop :=
  ∀ g : Group, dec8 g = dec8Parallel g

/-- R127. `DEC8` inverts `ENC8`, `ENC8(p)` is the only group that gives `ok(p)`, and exactly 256 groups
decode. -/
def Obligations.Dec8InvertsEnc8Uniquely : Prop :=
  (∀ (g : Group) (p : Byte), dec8 g = .ok p ↔ g = enc8 p) ∧
  Set.ncard { g : Group | ∃ p, dec8 g = .ok p } = 256

/-- R106. Element `8 × i + j` of `Encode(x)` is the marker of bit `7 - j` of `x[i]`, and the length is
`8 × len(x)`. -/
def Obligations.EncodeElementwise : Prop :=
  ∀ x : List Byte,
    (encodeSeq x).length = 8 * x.length ∧
    ∀ (i : Nat) (hi : i < x.length) (j : Fin 8),
      (encodeSeq x)[8 * i + j.val]? = some (encbit (x[i].getLsbD (7 - j.val)))

/-- R131. A successful `Decode` has one byte per group, and bit `7 - j` of byte `i` is 1 for a `0xFF`
and 0 for a `0x00` at offset `8 × i + j`. -/
def Obligations.DecodeElementwise : Prop :=
  ∀ e x : List Byte, decodeSeq e = .ok x →
    x.length = e.length / 8 ∧
    ∀ (i : Nat) (hi : i < x.length) (j : Fin 8),
      (e[8 * i + j.val]? = some 0xFF#8 ∧ x[i].getLsbD (7 - j.val) = true) ∨
      (e[8 * i + j.val]? = some 0x00#8 ∧ x[i].getLsbD (7 - j.val) = false)

/-- R132. Which result, exactly: the length error, the marker error at the first bad offset, or
success on the well-formed expanded sequences. -/
def Obligations.DecodeResultExactly : Prop :=
  ∀ e : List Byte,
    (decodeSeq e = .err .lengthNotMultipleOf8 ↔ e.length % 8 ≠ 0) ∧
    (∀ (v : Byte) (a : Nat),
      decodeSeq e = .err (.invalidMarker v a) ↔
        e.length % 8 = 0 ∧ e[a]? = some v ∧ v ≠ 0x00#8 ∧ v ≠ 0xFF#8 ∧
          ∀ b < a, e[b]? = some 0x00#8 ∨ e[b]? = some 0xFF#8) ∧
    ((∃ x, decodeSeq e = .ok x) ↔ e.length % 8 = 0 ∧ ∀ b ∈ e, b = 0x00#8 ∨ b = 0xFF#8)

/-- R182. `Encode` is injective and `Decode` is its exact partial inverse. -/
def Obligations.DecodeIsExactPartialInverse : Prop :=
  (∀ x y : List Byte, encodeSeq x = encodeSeq y → x = y) ∧
  (∀ e x : List Byte, decodeSeq e = .ok x ↔ e = encodeSeq x)

/-- R183. Both functions respect concatenation, and the error offset is absolute. -/
def Obligations.CodecRespectsConcatenation : Prop :=
  (∀ x y : List Byte, encodeSeq (x ++ y) = encodeSeq x ++ encodeSeq y) ∧
  (∀ e f x y : List Byte, decodeSeq e = .ok x → decodeSeq f = .ok y →
    decodeSeq (e ++ f) = .ok (x ++ y)) ∧
  (∀ (e f x : List Byte) (v : Byte) (a : Nat), decodeSeq e = .ok x → f.length % 8 = 0 →
    decodeSeq f = .err (.invalidMarker v a) →
    decodeSeq (e ++ f) = .err (.invalidMarker v (e.length + a)))

/-- R172. Every byte of an encoding is a marker. -/
def Obligations.EncodeOutputOnlySentinels : Prop :=
  ∀ (x : List Byte) (b : Byte), b ∈ encodeSeq x → b = 0x00#8 ∨ b = 0xFF#8

/-- R173, R178, R179, R180. The document's bit-ordering example, length validation, marker validation
and empty input. -/
def Obligations.DocumentedProperties : Prop :=
  encodeSeq [0b10110000#8] =
    [0xFF#8, 0x00#8, 0xFF#8, 0xFF#8, 0x00#8, 0x00#8, 0x00#8, 0x00#8] ∧
  (∀ e : List Byte, e.length % 8 ≠ 0 → decodeSeq e = .err .lengthNotMultipleOf8) ∧
  (∀ e : List Byte, e.length = 8 → (∃ b ∈ e, b ≠ 0x00#8 ∧ b ≠ 0xFF#8) →
    ∃ v a, decodeSeq e = .err (.invalidMarker v a)) ∧
  decodeSeq [0xFF#8, 0xFF#8, 0xFF#8, 0xFF#8, 0xFF#8, 0xFF#8, 0xFF#8, 0x01#8] =
    .err (.invalidMarker 0x01#8 7) ∧
  encodeSeq [] = [] ∧ decodeSeq [] = .ok []

/-- R184. Of the sequences of length `m`, `Decode` accepts none if `m mod 8 != 0` and exactly `2^m` if
`m mod 8 = 0`. -/
def Obligations.AcceptedSequencesCounted : Prop :=
  ∀ m : Nat,
    Set.ncard { e : List Byte | e.length = m ∧ ∃ x, decodeSeq e = .ok x } =
      if m % 8 = 0 then 2 ^ m else 0

/-! ## The two commands and the host access operations -/

/-- R153. START: ignored in BUSY; refused for ENC when the result would not fit; else one atomic step
that latches `LEN`, clears the progress, the previous result and the error record, and enters BUSY. It
is also `WRR u.CTRL, 1`. -/
def Obligations.StartBeginsAnOperation : Prop :=
  ∀ s : State,
    exec (.wrr .enc .ctrl 1) s = exec .encode s ∧
    exec (.wrr .dec .ctrl 1) s = exec .decode s ∧
    (s.enc.phase = .busy → exec .encode s = .next s) ∧
    (s.dec.phase = .busy → exec .decode s = .next s) ∧
    (s.enc.phase ≠ .busy → fits s.cfg (8 * s.enc.len) = false →
      exec .encode s = .refused (.beyondMaxLen .enc)) ∧
    (s.enc.phase ≠ .busy → fits s.cfg (8 * s.enc.len) = true →
      ∃ t, exec .encode s = .next t ∧
        t = { s with
              enc := { s.enc with phase := .busy, n := s.enc.len, pos := 0, outLen := 0 }
              encK := 0 } ∧
        statusOf t .enc = 0x01#8 ∧ errValueOf t .enc = 0x00#8 ∧ errOffsetOf t .enc = 0) ∧
    (s.dec.phase ≠ .busy →
      ∃ t, exec .decode s = .next t ∧
        t = { s with
              dec := { s.dec with phase := .busy, n := s.dec.len, pos := 0, outLen := 0 }
              decSub := .check
              decErrKind := .ok
              decErrValue := 0x00#8
              decErrOffset := 0 } ∧
        statusOf t .dec = 0x01#8)

/-- R151. `WRR` by register: `LEN` in IDLE and DONE when it fits, `CTRL` by bit 0, every other register
refused. A write of `LEN` changes `LEN` alone. -/
def Obligations.WrrByRegister : Prop :=
  ∀ (u : UnitId) (v : Nat) (s : State),
    ((s.unit u).phase ≠ .busy → fits s.cfg v = true →
      exec (.wrr u .len v) s = .next (s.setUnit u { s.unit u with len := v })) ∧
    ((s.unit u).phase = .busy → exec (.wrr u .len v) s = .refused (.writeWhileBusy u)) ∧
    ((s.unit u).phase ≠ .busy → fits s.cfg v = false →
      exec (.wrr u .len v) s = .refused (.beyondMaxLen u)) ∧
    (v.testBit 0 = true →
      exec (.wrr u .ctrl v) s = exec (match u with | .enc => .encode | .dec => .decode) s) ∧
    (v.testBit 0 = false → exec (.wrr u .ctrl v) s = .next s) ∧
    (∀ r : RegIdx, r = .status ∨ r = .outLen ∨ r = .errValue ∨ r = .errOffset →
      exec (.wrr u r v) s = .refused (.readOnlyRegister u r)) ∧
    (∀ r : RegIdx, r = .none6 ∨ r = .none7 →
      exec (.wrr u r v) s = .refused (.noSuchRegister u r))

/-- R150. `RDR` gives back the register's value in every phase, `CTRL` reading 0, and changes nothing
else; indices 6 and 7 are refused. -/
def Obligations.RdrReadsTheRegister : Prop :=
  ∀ (u : UnitId) (s : State),
    exec (.rdr u .ctrl) s = .next { s with answer := some (.value 0) } ∧
    exec (.rdr u .status) s = .next { s with answer := some (.value (statusOf s u).toNat) } ∧
    exec (.rdr u .len) s = .next { s with answer := some (.value (s.unit u).len) } ∧
    exec (.rdr u .outLen) s = .next { s with answer := some (.value (s.unit u).outLen) } ∧
    exec (.rdr u .errValue) s = .next { s with answer := some (.value (errValueOf s u).toNat) } ∧
    exec (.rdr u .errOffset) s = .next { s with answer := some (.value (errOffsetOf s u)) } ∧
    exec (.rdr u .none6) s = .refused (.noSuchRegister u .none6) ∧
    exec (.rdr u .none7) s = .refused (.noSuchRegister u .none7)

/-- R34. The error fields of ENC, `ERR_VALUE`, `ERR_OFFSET` and `ERR_KIND` in `STATUS`, are hardwired to
0: they read 0 in every state. -/
def Obligations.EncErrorFieldsHardwired : Prop :=
  ∀ s : State,
    exec (.rdr .enc .errValue) s = .next { s with answer := some (.value 0) } ∧
    exec (.rdr .enc .errOffset) s = .next { s with answer := some (.value 0) } ∧
    (statusOf s .enc).extractLsb' 2 2 = 0#2

/-- R154. `WRS` stores one source byte when the unit is not BUSY and the offset is below MAXLEN: that
cell reads as the byte, every other cell of every buffer reads as before, every register keeps its
value; else it is refused. -/
def Obligations.WrsStoresOneSourceByte : Prop :=
  ∀ (u : UnitId) (a : Nat) (v : Byte) (s : State),
    ((s.unit u).phase ≠ .busy → inRange s.cfg a = true →
      ∃ t, exec (.wrs u a v) s = .next t ∧
        readCell t u .src a = v ∧
        (∀ (w : UnitId) (b : Buf) (c : Nat), ¬(w = u ∧ b = .src ∧ c = a) →
          readCell t w b c = readCell s w b c) ∧
        t = s.setUnit u { s.unit u with src := (t.unit u).src }) ∧
    ((s.unit u).phase = .busy → exec (.wrs u a v) s = .refused (.writeWhileBusy u)) ∧
    ((s.unit u).phase ≠ .busy → inRange s.cfg a = false →
      exec (.wrs u a v) s = .refused (.beyondMaxLen u))

/-- R155. `RDS` gives back the source byte in every phase below MAXLEN and changes nothing else: the
last byte written there, or the unwritten cell's free value (the model's form of it: log 2). -/
def Obligations.RdsReadsOneSourceByte : Prop :=
  ∀ (u : UnitId) (a : Nat) (s : State),
    (inRange s.cfg a = true →
      exec (.rds u a) s = .next { s with answer := some (.byte (readCell s u .src a)) }) ∧
    (inRange s.cfg a = false → exec (.rds u a) s = .refused (.beyondMaxLen u)) ∧
    (∀ v : Byte, (s.unit u).phase ≠ .busy → inRange s.cfg a = true →
      ∃ t, runOps [.wrs u a v, .rds u a] s = .next t ∧ t.answer = some (.byte v)) ∧
    (Memory.get? (s.unit u).src a = none →
      readCell s u .src a = Config.unwrittenByte s.epoch u .src a)

/-- R156. `RDD` gives back the destination byte exactly in phase DONE below `OUT_LEN`, changes nothing
else, and is refused otherwise. -/
def Obligations.RddReadsOneResultByte : Prop :=
  ∀ (u : UnitId) (a : Nat) (s : State),
    ((s.unit u).phase = .done → a < (s.unit u).outLen →
      exec (.rdd u a) s = .next { s with answer := some (.byte (readCell s u .dst a)) }) ∧
    ((s.unit u).phase ≠ .done → exec (.rdd u a) s = .refused (.dstNotReadable u)) ∧
    ((s.unit u).outLen ≤ a → exec (.rdd u a) s = .refused (.dstNotReadable u))

/-- R29. The fields of `STATUS` in every state, and its legal values in every safe state. -/
def Obligations.StatusFieldsAndLegalValues : Prop :=
  (∀ (s : State) (u : UnitId),
    ((statusOf s u).getLsbD 0 = true ↔ (s.unit u).phase = .busy) ∧
    ((statusOf s u).getLsbD 1 = true ↔ (s.unit u).phase = .done) ∧
    (statusOf s u).extractLsb' 2 2 = (errKindCode (errKindOf s u)).setWidth 2 ∧
    (statusOf s u).extractLsb' 4 4 = 0#4) ∧
  (∀ s : State, s.Inv →
    (statusOf s .enc = 0x00#8 ∨ statusOf s .enc = 0x01#8 ∨ statusOf s .enc = 0x02#8) ∧
    (statusOf s .dec = 0x00#8 ∨ statusOf s .dec = 0x01#8 ∨ statusOf s .dec = 0x02#8 ∨
      statusOf s .dec = 0x06#8 ∨ statusOf s .dec = 0x0A#8))

/-- R42, R36. During BUSY the host observes `STATUS = 0x01`, `OUT_LEN = 0`, a zero error record, and no
destination cell. -/
def Obligations.BusyShowsNoProgress : Prop :=
  ∀ (s : State) (u : UnitId), s.Inv → (s.unit u).phase = .busy →
    exec (.rdr u .status) s = .next { s with answer := some (.value 1) } ∧
    exec (.rdr u .outLen) s = .next { s with answer := some (.value 0) } ∧
    exec (.rdr u .errValue) s = .next { s with answer := some (.value 0) } ∧
    exec (.rdr u .errOffset) s = .next { s with answer := some (.value 0) } ∧
    ∀ a, exec (.rdd u a) s = .refused (.dstNotReadable u)

/-- R39, R200. After a failed DECODE no destination cell is readable; and every cell that is readable
in a safe state is one the unit has written, never an unwritten cell's free value. -/
def Obligations.NoPartialOutputReadable : Prop :=
  (∀ s : State, s.Inv → s.decErrKind ≠ .ok → ∀ a, exec (.rdd .dec a) s = .refused (.dstNotReadable .dec)) ∧
  (∀ (s : State) (u : UnitId) (a : Nat), s.Inv → (s.unit u).phase = .done → a < (s.unit u).outLen →
    ∃ v, Memory.get? (s.unit u).dst a = some v ∧
      exec (.rdd u a) s = .next { s with answer := some (.byte v) })

/-- R86, R85. `LOAD u, bs` on a unit that is not BUSY completes, and then `SRC[0 ..< m]` is `bs`, `LEN`
is `m`, and every other cell and register is as before. -/
def Obligations.LoadPlacesTheSequence : Prop :=
  ∀ (u : UnitId) (bs : List Byte) (s : State),
    (s.unit u).phase ≠ .busy → fits s.cfg bs.length = true →
    ∃ t, runOps (pseudoLoad u bs) s = .next t ∧
      readSeq t u .src bs.length = bs ∧ (t.unit u).len = bs.length ∧
      (∀ (w : UnitId) (b : Buf) (c : Nat), ¬(w = u ∧ b = .src ∧ c < bs.length) →
        readCell t w b c = readCell s w b c) ∧
      t = s.setUnit u { s.unit u with src := (t.unit u).src, len := bs.length }

/-! ## The steps of the units, errors and reset -/

/-- R110. The ENC emit step: the marker of bit `7 - k` of `SRC[pos]` goes to `DST[8 × pos + k]`, every
other cell reads as before, `k` and `pos` move on, and nothing else changes. -/
def Obligations.EncEmitStepWritesOneMarker : Prop :=
  ∀ (s : State) (ts : List Turn),
    s.turns = .enc :: ts → s.enc.phase = .busy → s.enc.pos < s.enc.n →
    ∃ t, step s = .next t ∧
      readCell t .enc .dst (8 * s.enc.pos + s.encK.val) =
        (if (readCell s .enc .src s.enc.pos).getLsbD (7 - s.encK.val) = true
          then 0xFF#8 else 0x00#8) ∧
      (∀ (w : UnitId) (b : Buf) (c : Nat),
        ¬(w = .enc ∧ b = .dst ∧ c = 8 * s.enc.pos + s.encK.val) →
        readCell t w b c = readCell s w b c) ∧
      t = { s with
            turns := ts
            enc := { s.enc with
                     pos := if s.encK = 7 then s.enc.pos + 1 else s.enc.pos
                     dst := t.enc.dst }
            encK := if s.encK = 7 then 0 else s.encK + 1 } ∧
      statusOf t .enc = 0x01#8

/-- R111. The ENC final step: `OUT_LEN <- 8 × n` and `STATUS <- 0x02` in one step, nothing else. -/
def Obligations.EncFinalStepPublishesTheResult : Prop :=
  ∀ (s : State) (ts : List Turn),
    s.turns = .enc :: ts → s.enc.phase = .busy → s.enc.pos = s.enc.n →
    ∃ t, step s = .next t ∧
      t = { s with turns := ts, enc := { s.enc with phase := .done, outLen := 8 * s.enc.n } } ∧
      statusOf t .enc = 0x02#8 ∧ errValueOf t .enc = 0x00#8 ∧ errOffsetOf t .enc = 0

/-- R135. The DEC check step: the length error in one step, or on to SCAN; it reads no cell. -/
def Obligations.DecCheckStepTestsTheLength : Prop :=
  ∀ (s : State) (ts : List Turn),
    s.turns = .dec :: ts → s.dec.phase = .busy → s.decSub = .check →
    (s.dec.n % 8 ≠ 0 →
      ∃ t, step s = .next t ∧
        t = { s with
              turns := ts
              dec := { s.dec with phase := .done, outLen := 0 }
              decErrKind := .lengthNotMultipleOf8
              decErrValue := 0x00#8
              decErrOffset := 0 } ∧
        statusOf t .dec = 0x06#8) ∧
    (s.dec.n % 8 = 0 → step s = .next { s with turns := ts, decSub := .scan })

/-- R136. The DEC group step: the byte of the group at `pos` goes to `DST[pos div 8]` and `pos` moves on
by 8, every other cell reading as before; or the marker error with the byte and its absolute offset
is recorded and no cell changes. -/
def Obligations.DecGroupStepDecodesOneGroup : Prop :=
  ∀ (s : State) (ts : List Turn) (g : Group),
    s.turns = .dec :: ts → s.dec.phase = .busy → s.decSub = .scan → s.dec.pos < s.dec.n →
    (∀ j : Fin 8, g.get j = readCell s .dec .src (s.dec.pos + j.val)) →
    (∀ p, dec8 g = .ok p →
      ∃ t, step s = .next t ∧
        readCell t .dec .dst (s.dec.pos / 8) = p ∧
        (∀ (w : UnitId) (b : Buf) (c : Nat), ¬(w = .dec ∧ b = .dst ∧ c = s.dec.pos / 8) →
          readCell t w b c = readCell s w b c) ∧
        t = { s with turns := ts, dec := { s.dec with pos := s.dec.pos + 8, dst := t.dec.dst } }) ∧
    (∀ (j : Fin 8) (v : Byte), dec8 g = .invalid j v →
      ∃ t, step s = .next t ∧
        t = { s with
              turns := ts
              dec := { s.dec with phase := .done, outLen := 0 }
              decErrKind := .invalidMarker
              decErrValue := v
              decErrOffset := s.dec.pos + j.val } ∧
        statusOf t .dec = 0x0A#8)

/-- R137. The DEC final step: `OUT_LEN <- n div 8` and `STATUS <- 0x02` in one step, nothing else. -/
def Obligations.DecFinalStepPublishesTheResult : Prop :=
  ∀ (s : State) (ts : List Turn),
    s.turns = .dec :: ts → s.dec.phase = .busy → s.decSub = .scan → s.dec.pos = s.dec.n →
    ∃ t, step s = .next t ∧
      t = { s with
            turns := ts
            dec := { s.dec with phase := .done, outLen := s.dec.n / 8 }
            decErrKind := .ok } ∧
      statusOf t .dec = 0x02#8

/-- R198. What `raise K(info)` does in one step: the record, `OUT_LEN <- 0`, the status and phase DONE;
`SRC`, `LEN` and unit ENC untouched. -/
def Obligations.RaiseRecordsTheError : Prop :=
  ∀ (s : State) (v : Byte) (a : Nat),
    raiseError .lengthNotMultipleOf8 s =
      { s with
        dec := { s.dec with phase := .done, outLen := 0 }
        decErrKind := .lengthNotMultipleOf8
        decErrValue := 0x00#8
        decErrOffset := 0 } ∧
    statusOf (raiseError .lengthNotMultipleOf8 s) .dec = 0x06#8 ∧
    raiseError (.invalidMarker v a) s =
      { s with
        dec := { s.dec with phase := .done, outLen := 0 }
        decErrKind := .invalidMarker
        decErrValue := v
        decErrOffset := a } ∧
    statusOf (raiseError (.invalidMarker v a) s) .dec = 0x0A#8

/-- R199, R33. An error is precise: the step that records `InvalidMarker` leaves `SRC[ERR_OFFSET]` equal
to `ERR_VALUE`, the offset below `n`, every source byte before it a marker, and `SRC` as it was. -/
def Obligations.MarkerErrorIsPrecise : Prop :=
  ∀ s t : State, s.Inv → s.dec.phase = .busy → takeTurn .dec s = .next t →
    t.decErrKind = .invalidMarker →
    readCell t .dec .src t.decErrOffset = t.decErrValue ∧ t.decErrOffset < t.dec.n ∧
    t.decErrValue ≠ 0x00#8 ∧ t.decErrValue ≠ 0xFF#8 ∧
    (∀ b < t.decErrOffset, readCell t .dec .src b = 0x00#8 ∨ readCell t .dec .src b = 0xFF#8) ∧
    t.dec.src = s.dec.src

/-- R220, R221. The RESET event, in any phase: every register of both units at its reset value and
every cell of every buffer unspecified, drawn anew (the draw's form and what is kept of the host's
side are the model's: log 2, log 12). -/
def Obligations.ResetEventResetsBothUnits : Prop :=
  ∀ (s : State) (ts : List Turn), s.turns = .platform :: ts →
    ∃ t, step s = .next t ∧
      (∀ u : UnitId,
        (t.unit u).phase = .idle ∧ statusOf t u = 0x00#8 ∧ (t.unit u).len = 0 ∧
        (t.unit u).outLen = 0 ∧ errValueOf t u = 0x00#8 ∧ errOffsetOf t u = 0 ∧
        (t.unit u).n = 0 ∧ (t.unit u).pos = 0) ∧
      t.encK = 0 ∧ t.decSub = .check ∧
      (∀ (u : UnitId) (b : Buf) (a : Nat),
        readCell t u b a = Config.unwrittenByte (s.epoch + 1) u b a) ∧
      t.cfg = s.cfg ∧ t.requests = s.requests ∧ t.turns = ts ∧ t.answer = s.answer

/-- R43. The state after reset: phase, registers and internal registers of each unit, `CTRL` reading 0,
and no cell written. -/
def Obligations.StateAfterReset : Prop :=
  (∀ u : UnitId,
    (State.reset.unit u).phase = .idle ∧ statusOf State.reset u = 0x00#8 ∧
    (State.reset.unit u).len = 0 ∧ (State.reset.unit u).outLen = 0 ∧
    errValueOf State.reset u = 0x00#8 ∧ errOffsetOf State.reset u = 0 ∧
    (State.reset.unit u).n = 0 ∧ (State.reset.unit u).pos = 0 ∧
    readReg State.reset u .ctrl = some 0) ∧
  State.reset.encK = 0 ∧ State.reset.decSub = .check ∧
  (∀ (u : UnitId) (b : Buf) (a : Nat),
    readCell State.reset u b a = Config.unwrittenByte 0 u b a)

/-! ## Whole-machine rules -/

/-- R109, R140. In every safe state a BUSY unit's turn completes and changes that unit, and in IDLE and
DONE the unit has no step: its turn changes nothing (that the turn passes is the model's: log 4). -/
def Obligations.BusyUnitIsNeverStuck : Prop :=
  ∀ s : State, s.Inv →
    (s.enc.phase = .busy →
      ∃ t, takeTurn .enc s = .next t ∧
        (t.enc.phase, t.enc.pos, t.encK) ≠ (s.enc.phase, s.enc.pos, s.encK)) ∧
    (s.dec.phase = .busy →
      ∃ t, takeTurn .dec s = .next t ∧
        (t.dec.phase, t.dec.pos, t.decSub) ≠ (s.dec.phase, s.dec.pos, s.decSub)) ∧
    (s.enc.phase ≠ .busy → takeTurn .enc s = .next s) ∧
    (s.dec.phase ≠ .busy → takeTurn .dec s = .next s)

/-- R114, R141, R17. A turn of one unit leaves everything of the other unit, the host's side, and its own
`SRC` and `LEN` as they were; ENC writes no `DST` cell at `8 × n` or above, DEC none at `n div 8` or
above. -/
def Obligations.UnitTurnsKeepTheirFrame : Prop :=
  (∀ s t : State, takeTurn .enc s = .next t →
    t = { s with
          enc := { s.enc with phase := t.enc.phase, outLen := t.enc.outLen, pos := t.enc.pos, dst := t.enc.dst }
          encK := t.encK } ∧
    ∀ a, 8 * s.enc.n ≤ a → readCell t .enc .dst a = readCell s .enc .dst a) ∧
  (∀ s t : State, s.Inv → takeTurn .dec s = .next t →
    t = { s with
          dec := { s.dec with phase := t.dec.phase, outLen := t.dec.outLen, pos := t.dec.pos, dst := t.dec.dst }
          decSub := t.decSub
          decErrKind := t.decErrKind
          decErrValue := t.decErrValue
          decErrOffset := t.decErrOffset } ∧
    ∀ a, s.dec.n / 8 ≤ a → readCell t .dec .dst a = readCell s .dec .dst a)

/-- R17. Steps of ENC and DEC commute. -/
def Obligations.UnitTurnsCommute : Prop :=
  ∀ s a b : State, takeTurn .enc s = .next a → takeTurn .dec s = .next b →
    ∃ t, takeTurn .dec a = .next t ∧ takeTurn .enc b = .next t

/-- R25. The phase of a unit changes only by START (host), by the unit's own ending step, or by reset. -/
def Obligations.PhaseChangesOnlyAsRuled : Prop :=
  ∀ (s t : State) (u : UnitId), step s = .next t →
    (t.unit u).phase = (s.unit u).phase ∨
    ((nextTurn s).1 = .host ∧ (s.unit u).phase ≠ .busy ∧ (t.unit u).phase = .busy) ∨
    ((nextTurn s).1 = (match u with | .enc => .enc | .dec => .dec) ∧
      (s.unit u).phase = .busy ∧ (t.unit u).phase = .done) ∨
    ((nextTurn s).1 = .platform ∧ (t.unit u).phase = .idle)

/-- R158. DONE is sticky: until the next START of the unit or reset, phase, result registers, error
record and readable cells stay, whoever moves. -/
def Obligations.DoneIsSticky : Prop :=
  ∀ (s t : State) (u : UnitId), (s.unit u).phase = .done → step s = .next t →
    (nextTurn s).1 = .platform ∨
    ((nextTurn s).1 = .host ∧ (t.unit u).phase = .busy) ∨
    ((t.unit u).phase = .done ∧ (t.unit u).outLen = (s.unit u).outLen ∧
      statusOf t u = statusOf s u ∧ errValueOf t u = errValueOf s u ∧
      errOffsetOf t u = errOffsetOf s u ∧
      ∀ a, a < (s.unit u).outLen → readCell t u .dst a = readCell s u .dst a)

/-- R24, R65, R228. While a unit is BUSY, whoever moves but the platform: `pos` stays or grows by 1 (ENC)
or 8 (DEC), and `n`, `LEN` and every `SRC` cell stay. -/
def Obligations.BusyUnitOnlyMovesForward : Prop :=
  ∀ (s t : State) (u : UnitId), (s.unit u).phase = .busy → step s = .next t →
    (nextTurn s).1 ≠ .platform →
    ((t.unit u).pos = (s.unit u).pos ∨
      (t.unit u).pos = (s.unit u).pos + (match u with | .enc => 1 | .dec => 8)) ∧
    (t.unit u).n = (s.unit u).n ∧ (t.unit u).len = (s.unit u).len ∧
    ∀ a, readCell t u .src a = readCell s u .src a

/-- R9, R175. `OFFSET_W` is the least width with `MAXLEN < 2^w`, and in every safe state of a finite
instance every length and offset register, every write offset included, fits in it: nothing wraps. -/
def Obligations.OffsetsFitTheirWidth : Prop :=
  ∀ (s : State) (m w : Nat), s.cfg.maxLen = some m → offsetW s.cfg = some w →
    m < 2 ^ w ∧ (∀ w', m < 2 ^ w' → w ≤ w') ∧
    (s.Inv →
      (∀ u : UnitId, (s.unit u).len < 2 ^ w ∧ (s.unit u).outLen < 2 ^ w ∧
        (s.unit u).n < 2 ^ w ∧ (s.unit u).pos < 2 ^ w ∧ errOffsetOf s u < 2 ^ w) ∧
      (s.enc.pos < s.enc.n → encWriteOffset s.enc.pos s.encK < 2 ^ w))

/-- No step changes the instance's configuration (the model's field: log 1). -/
def Obligations.StepKeepsConfiguration : Prop :=
  ∀ s t : State, step s = .next t → t.cfg = s.cfg

/-- The machine is safe right after reset. -/
def Obligations.ResetSatisfiesInvariant : Prop := State.reset.Inv

/-- R24, R25, R31, R32, R112, R138. Every step keeps the invariant: canonical buffers below MAXLEN,
`pos <= n`, `DST` holding the prefix of the encoding or the decoded prefix while BUSY, results and
error record by phase. -/
def Obligations.StepKeepsInvariant : Prop :=
  ∀ s t : State, s.Inv → step s = .next t → t.Inv

/-- R109, R140, R193. No safe state faults: whatever the step, its outcome is a next state or a refused
host operation. -/
def Obligations.SafeStateNeverFaults : Prop :=
  ∀ (s : State) (f : Fault), s.Inv → step s ≠ .fault f

/-! ## Decoding -/

/-- A step gives the turn to the oldest of `turns`, or to whom the free value names when there is none; a
host turn runs exactly the instruction its oldest request decodes to, on the state with the turn and
the request taken, rejects a request that decodes to none, and passes with none pending; and a table
word placed by `withFetchWord` is what the next step runs (the request form, the schedule and the
passing turn are the model's: log 3, log 4, log 5, log 6). -/
def Obligations.StepRunsTheDecodedRequest : Prop :=
  (∀ (s : State) (t : Turn) (ts : List Turn), s.turns = t :: ts →
    step s = takeTurn t { s with turns := ts }) ∧
  (∀ s : State, s.turns = [] →
    step s = takeTurn (Config.turnAt s.draws) { s with draws := s.draws + 1 }) ∧
  (∀ (s : State) (r : Request) (rs : List Request) (i : Instr),
    s.requests = r :: rs → decode r = .ok i →
    takeTurn .host s = exec i { s with requests := rs }) ∧
  (∀ (s : State) (r : Request) (rs : List Request) (e : DecodeError),
    s.requests = r :: rs → decode r = .error e →
    takeTurn .host s = .refused (.malformedRequest e)) ∧
  (∀ s : State, s.requests = [] → takeTurn .host s = .next s) ∧
  (∀ (s : State) (ts : List Turn) (r : Request) (rs : List Request) (i : Instr),
    s.turns = .host :: ts → s.requests = r :: rs → decode r = .ok i →
    step s = exec i { s with turns := ts, requests := rs }) ∧
  (∀ (s : State) (nbits w : Nat) (i : Instr), decodeTableWord nbits w = some i →
    step (s.withFetchWord nbits w) = exec i s)

/-- Words written out from the spec's encodings (R70, R72, R76, R79; 95_test_vectors.md section 3) decode
to the instructions they stand for (the form of a request is the model's: log 5). -/
def Obligations.EncodingsReadRight : Prop :=
  decode ⟨.cmd, [0b00001#8], []⟩ = .ok .encode ∧
  decode ⟨.cmd, [0b10001#8], []⟩ = .ok .decode ∧
  decode ⟨.mark, [0b11111111#8], []⟩ = .ok .markOne ∧
  decode ⟨.wrr, [0b1010#8], [16]⟩ = .ok (.wrr .dec .len 16) ∧
  decode ⟨.rdr, [0b0001#8], []⟩ = .ok (.rdr .enc .status) ∧
  decode ⟨.wrs, [0b1#8], [11, 0xFF]⟩ = .ok (.wrs .dec 11 0xFF#8) ∧
  decode ⟨.rdd, [0b0#8], [8]⟩ = .ok (.rdd .enc 8)

/-- Decoding an encoded well-formed instruction gives it back, with every operand at every value; and
whatever decodes is well-formed (the form of a request is the model's: log 5). -/
def Obligations.DecodeInvertsEncode : Prop :=
  (∀ i : Instr, WellFormed i = true → decode (encode i) = .ok i) ∧
  (∀ (r : Request) (i : Instr), decode r = .ok i → WellFormed i = true)

/-- R84, R70, R79. A `CMD` with value bit 0 clear does nothing; with both units BUSY no `CMD` does anything
(the form for one BUSY unit is `StartBeginsAnOperation`); and exactly the four words of a `CTRL` register
decode. Which `CMD` bytes decode is the model's choice: a pattern is right-aligned in a byte with no bit
above it set (log 5), and a word that names no `CTRL` register is rejected (log 11). -/
def Obligations.CommandWordsWithoutEffect : Prop :=
  (∀ (s : State) (w : Byte) (i : Instr), w.getLsbD 0 = false →
    decode ⟨.cmd, [w], []⟩ = .ok i → exec i s = .next s) ∧
  (∀ (s : State) (i : Instr), s.enc.phase = .busy → s.dec.phase = .busy →
    ∀ w : Byte, decode ⟨.cmd, [w], []⟩ = .ok i → exec i s = .next s) ∧
  (∀ w : Byte, (∃ i, decode ⟨.cmd, [w], []⟩ = .ok i) ↔
    w = 0x00#8 ∨ w = 0x01#8 ∨ w = 0x10#8 ∨ w = 0x11#8)

/-! ## The operations as a whole -/

/-- R108, R159, R233. ENCODE, from any safe state in which ENC is not BUSY and `x` is loaded: START
completes, and after any schedule of unit turns that gives ENC at least `8 × n + 1` of them, whatever
DEC does meanwhile, ENC is DONE with `Encode(x)` in `DST`, `SRC` and `LEN` unchanged. -/
def Obligations.EncodeRunsToItsResult : Prop :=
  ∀ (s : State) (x : List Byte), s.Inv → s.enc.phase ≠ .busy → s.enc.len = x.length →
    fits s.cfg (8 * x.length) = true → readSeq s .enc .src x.length = x →
    s.requests = [] → Turn.platform ∉ s.turns → 8 * x.length + 1 ≤ s.turns.count .enc →
    ∃ t v, exec .encode s = .next t ∧ Host.Core.run Sys2Proof.core s.turns.length t = .next v ∧
      EncResult x v ∧ v.enc.src = s.enc.src ∧ v.enc.len = s.enc.len

/-- R134, R159, R233. DECODE, from any safe state in which DEC is not BUSY and `e` is loaded: START
completes, and after any schedule of unit turns that gives DEC enough of them, whatever ENC does
meanwhile, DEC is DONE with the result `Decode(e)` selects, `SRC` and `LEN` unchanged. -/
def Obligations.DecodeRunsToItsResult : Prop :=
  ∀ (s : State) (e : List Byte), s.Inv → s.dec.phase ≠ .busy → s.dec.len = e.length →
    readSeq s .dec .src e.length = e →
    s.requests = [] → Turn.platform ∉ s.turns → decStepCount e ≤ s.turns.count .dec →
    ∃ t v, exec .decode s = .next t ∧ Host.Core.run Sys2Proof.core s.turns.length t = .next v ∧
      DecResult e v ∧ v.dec.src = s.dec.src ∧ v.dec.len = s.dec.len

/-- R113. An ENCODE of `n` bytes takes exactly `8 × n` emit steps, after each of which the unit is still
BUSY, and one final step. -/
def Obligations.EncodeStepCount : Prop :=
  ∀ s t : State, s.Inv → s.enc.phase ≠ .busy → exec .encode s = .next t →
    (∀ m ≤ 8 * s.enc.len, ∃ v, repeatTurn .enc m t = .next v ∧ v.enc.phase = .busy ∧
      8 * v.enc.pos + v.encK.val = m) ∧
    (∃ v, repeatTurn .enc (8 * s.enc.len + 1) t = .next v ∧ v.enc.phase = .done)

/-- R139. A DECODE takes 1 step for a bad length, `1 + f + 1` when the first invalid marker lies in
group `f`, else `1 + n div 8 + 1`: BUSY before, DONE after. -/
def Obligations.DecodeStepCount : Prop :=
  ∀ (s t : State) (e : List Byte), s.Inv → s.dec.phase ≠ .busy → s.dec.len = e.length →
    readSeq s .dec .src e.length = e → exec .decode s = .next t →
    (∀ m < decStepCount e, ∃ v, repeatTurn .dec m t = .next v ∧ v.dec.phase = .busy) ∧
    (∃ v, repeatTurn .dec (decStepCount e) t = .next v ∧ v.dec.phase = .done)

/-- R159, R56, R157. The call law, one step at a time and with every agent free to move: a running
operation stays running on its own source or ends with that source's result, and a result stays
until the host starts the unit again, whatever the host asks, the other unit does, or the schedule
is; only reset is left out. -/
def Obligations.CallLawHoldsAtEveryStep : Prop :=
  ∀ (s t : State) (x : List Byte), s.Inv → step s = .next t → (nextTurn s).1 ≠ .platform →
    (EncRunning x s → EncRunning x t ∨ EncResult x t) ∧
    (DecRunning x s → DecRunning x t ∨ DecResult x t) ∧
    (EncResult x s → EncResult x t ∨ ((nextTurn s).1 = .host ∧ t.enc.phase = .busy)) ∧
    (DecResult x s → DecResult x t ∨ ((nextTurn s).1 = .host ∧ t.dec.phase = .busy))

/-- R170. The round-trip law, of the functions and of the hardware: ENCODE of `x`, `COPY ENC -> DEC` of
the cells read, DECODE, end with `ERR_KIND = 0` and the result `x`. -/
def Obligations.RoundTripOnTheHardware : Prop :=
  (∀ x : List Byte, decodeSeq (encodeSeq x) = .ok x) ∧
  (∀ (s : State) (x : List Byte), s.Inv → s.enc.phase ≠ .busy → s.dec.phase ≠ .busy →
    fits s.cfg (8 * x.length) = true →
    ∃ a b c d, runOps (pseudoLoad .enc x ++ pseudoStart .enc) s = .next a ∧
      repeatTurn .enc (8 * x.length + 1) a = .next b ∧
      runOps (pseudoCopy (readSeq b .enc .dst b.enc.outLen) ++ pseudoStart .dec) b = .next c ∧
      repeatTurn .dec (x.length + 2) c = .next d ∧
      d.dec.phase = .done ∧ errKindOf d .dec = .ok ∧ d.dec.outLen = x.length ∧
      readSeq d .dec .dst d.dec.outLen = x)

/-- R181, R41, R203. No state of one operation influences a later one: two runs of a unit over the same
source sequence, from any two safe states, end with the same status, lengths, error record and result. -/
def Obligations.ResultDependsOnTheSourceAlone : Prop :=
  (∀ (s s' t t' v v' : State) (m m' : Nat), s.Inv → s'.Inv →
    s.dec.phase ≠ .busy → s'.dec.phase ≠ .busy → s.dec.len = s'.dec.len →
    readSeq s .dec .src s.dec.len = readSeq s' .dec .src s.dec.len →
    exec .decode s = .next t → exec .decode s' = .next t' →
    repeatTurn .dec m t = .next v → repeatTurn .dec m' t' = .next v' →
    v.dec.phase = .done → v'.dec.phase = .done →
    statusOf v .dec = statusOf v' .dec ∧ v.dec.outLen = v'.dec.outLen ∧
    v.decErrValue = v'.decErrValue ∧ v.decErrOffset = v'.decErrOffset ∧
    readSeq v .dec .dst v.dec.outLen = readSeq v' .dec .dst v.dec.outLen) ∧
  (∀ (s s' t t' v v' : State) (m m' : Nat), s.Inv → s'.Inv →
    s.enc.phase ≠ .busy → s'.enc.phase ≠ .busy → s.enc.len = s'.enc.len →
    readSeq s .enc .src s.enc.len = readSeq s' .enc .src s.enc.len →
    exec .encode s = .next t → exec .encode s' = .next t' →
    repeatTurn .enc m t = .next v → repeatTurn .enc m' t' = .next v' →
    v.enc.phase = .done → v'.enc.phase = .done →
    statusOf v .enc = statusOf v' .enc ∧ v.enc.outLen = v'.enc.outLen ∧
    readSeq v .enc .dst v.enc.outLen = readSeq v' .enc .dst v.enc.outLen)
end

