-- ==== Sys2Proof/Laws/State.lean ====
section
/-! SUPPORT. One lemma for each field of the state under each update, so that no later proof unfolds a
record update. -/

namespace Sys2Proof.Machine

/-! The legal values of `STATUS` (R29). -/

@[simp] theorem statusByte_idle : statusByte .idle .ok = 0x00#8 := by decide
@[simp] theorem statusByte_busy : statusByte .busy .ok = 0x01#8 := by decide
@[simp] theorem statusByte_done : statusByte .done .ok = 0x02#8 := by decide
@[simp] theorem statusByte_done_length : statusByte .done .lengthNotMultipleOf8 = 0x06#8 := by decide
@[simp] theorem statusByte_done_marker : statusByte .done .invalidMarker = 0x0A#8 := by decide

/-! The units of a state and their updates. -/

@[simp] theorem State.unit_enc (s : State) : s.unit .enc = s.enc := rfl
@[simp] theorem State.unit_dec (s : State) : s.unit .dec = s.dec := rfl
@[simp] theorem State.setUnit_enc (s : State) (r : UnitRegs) : s.setUnit .enc r = { s with enc := r } := rfl
@[simp] theorem State.setUnit_dec (s : State) (r : UnitRegs) : s.setUnit .dec r = { s with dec := r } := rfl

theorem State.unit_setUnit (s : State) (u w : UnitId) (r : UnitRegs) :
    (s.setUnit u r).unit w = if w = u then r else s.unit w := by
  cases u <;> cases w <;> rfl

@[simp] theorem State.unit_setUnit_same (s : State) (u : UnitId) (r : UnitRegs) :
    (s.setUnit u r).unit u = r := by
  cases u <;> rfl

@[simp] theorem State.setUnit_unit (s : State) (u : UnitId) : s.setUnit u (s.unit u) = s := by
  cases u <;> rfl

@[simp] theorem State.setUnit_cfg (s : State) (u : UnitId) (r : UnitRegs) : (s.setUnit u r).cfg = s.cfg := by
  cases u <;> rfl
@[simp] theorem State.setUnit_encK (s : State) (u : UnitId) (r : UnitRegs) : (s.setUnit u r).encK = s.encK := by
  cases u <;> rfl
@[simp] theorem State.setUnit_decSub (s : State) (u : UnitId) (r : UnitRegs) : (s.setUnit u r).decSub = s.decSub := by
  cases u <;> rfl
@[simp] theorem State.setUnit_decErrKind (s : State) (u : UnitId) (r : UnitRegs) :
    (s.setUnit u r).decErrKind = s.decErrKind := by
  cases u <;> rfl
@[simp] theorem State.setUnit_decErrValue (s : State) (u : UnitId) (r : UnitRegs) :
    (s.setUnit u r).decErrValue = s.decErrValue := by
  cases u <;> rfl
@[simp] theorem State.setUnit_decErrOffset (s : State) (u : UnitId) (r : UnitRegs) :
    (s.setUnit u r).decErrOffset = s.decErrOffset := by
  cases u <;> rfl
@[simp] theorem State.setUnit_answer (s : State) (u : UnitId) (r : UnitRegs) : (s.setUnit u r).answer = s.answer := by
  cases u <;> rfl
@[simp] theorem State.setUnit_requests (s : State) (u : UnitId) (r : UnitRegs) :
    (s.setUnit u r).requests = s.requests := by
  cases u <;> rfl
@[simp] theorem State.setUnit_turns (s : State) (u : UnitId) (r : UnitRegs) : (s.setUnit u r).turns = s.turns := by
  cases u <;> rfl
@[simp] theorem State.setUnit_draws (s : State) (u : UnitId) (r : UnitRegs) : (s.setUnit u r).draws = s.draws := by
  cases u <;> rfl
@[simp] theorem State.setUnit_epoch (s : State) (u : UnitId) (r : UnitRegs) : (s.setUnit u r).epoch = s.epoch := by
  cases u <;> rfl

@[simp] theorem answered_cfg (s : State) (a : Answer) : (answered s a).cfg = s.cfg := rfl
@[simp] theorem answered_enc (s : State) (a : Answer) : (answered s a).enc = s.enc := rfl
@[simp] theorem answered_encK (s : State) (a : Answer) : (answered s a).encK = s.encK := rfl
@[simp] theorem answered_dec (s : State) (a : Answer) : (answered s a).dec = s.dec := rfl
@[simp] theorem answered_decSub (s : State) (a : Answer) : (answered s a).decSub = s.decSub := rfl
@[simp] theorem answered_decErrKind (s : State) (a : Answer) : (answered s a).decErrKind = s.decErrKind := rfl
@[simp] theorem answered_decErrValue (s : State) (a : Answer) : (answered s a).decErrValue = s.decErrValue := rfl
@[simp] theorem answered_decErrOffset (s : State) (a : Answer) : (answered s a).decErrOffset = s.decErrOffset := rfl
@[simp] theorem answered_answer (s : State) (a : Answer) : (answered s a).answer = some a := rfl
@[simp] theorem answered_requests (s : State) (a : Answer) : (answered s a).requests = s.requests := rfl
@[simp] theorem answered_turns (s : State) (a : Answer) : (answered s a).turns = s.turns := rfl
@[simp] theorem answered_draws (s : State) (a : Answer) : (answered s a).draws = s.draws := rfl
@[simp] theorem answered_epoch (s : State) (a : Answer) : (answered s a).epoch = s.epoch := rfl

@[simp] theorem startRegs_phase (r : UnitRegs) : (startRegs r).phase = .busy := rfl
@[simp] theorem startRegs_len (r : UnitRegs) : (startRegs r).len = r.len := rfl
@[simp] theorem startRegs_outLen (r : UnitRegs) : (startRegs r).outLen = 0 := rfl
@[simp] theorem startRegs_n (r : UnitRegs) : (startRegs r).n = r.len := rfl
@[simp] theorem startRegs_pos (r : UnitRegs) : (startRegs r).pos = 0 := rfl
@[simp] theorem startRegs_src (r : UnitRegs) : (startRegs r).src = r.src := rfl
@[simp] theorem startRegs_dst (r : UnitRegs) : (startRegs r).dst = r.dst := rfl

@[simp] theorem resetEvent_cfg (s : State) : (resetEvent s).cfg = s.cfg := rfl
@[simp] theorem resetEvent_enc (s : State) : (resetEvent s).enc = UnitRegs.reset := rfl
@[simp] theorem resetEvent_encK (s : State) : (resetEvent s).encK = 0 := rfl
@[simp] theorem resetEvent_dec (s : State) : (resetEvent s).dec = UnitRegs.reset := rfl
@[simp] theorem resetEvent_decSub (s : State) : (resetEvent s).decSub = .check := rfl
@[simp] theorem resetEvent_decErrKind (s : State) : (resetEvent s).decErrKind = .ok := rfl
@[simp] theorem resetEvent_decErrValue (s : State) : (resetEvent s).decErrValue = 0x00#8 := rfl
@[simp] theorem resetEvent_decErrOffset (s : State) : (resetEvent s).decErrOffset = 0 := rfl
@[simp] theorem resetEvent_answer (s : State) : (resetEvent s).answer = s.answer := rfl
@[simp] theorem resetEvent_requests (s : State) : (resetEvent s).requests = s.requests := rfl
@[simp] theorem resetEvent_turns (s : State) : (resetEvent s).turns = s.turns := rfl
@[simp] theorem resetEvent_draws (s : State) : (resetEvent s).draws = s.draws := rfl
@[simp] theorem resetEvent_epoch (s : State) : (resetEvent s).epoch = s.epoch + 1 := rfl

/-- The register fields of the turn that was taken: only `turns` and `draws` move. -/
theorem nextTurn_state (s : State) :
    ∃ ts d, (nextTurn s).2 = { s with turns := ts, draws := d } := by
  unfold nextTurn
  split
  · exact ⟨_, s.draws, rfl⟩
  · exact ⟨s.turns, _, rfl⟩

/-- `raiseError` touches unit DEC's phase, `OUT_LEN` and error record only (R198). -/
theorem raiseError_frame (e : CodecError) (s : State) :
    raiseError e s =
      { s with
        dec := { s.dec with phase := .done, outLen := 0 }
        decErrKind := (raiseError e s).decErrKind
        decErrValue := (raiseError e s).decErrValue
        decErrOffset := (raiseError e s).decErrOffset } := by
  cases e <;> rfl

end Sys2Proof.Machine
end

