-- ==== Sys2Proof/Laws/Memory.lean ====
section
/-! SUPPORT. The laws of a buffer: read after write, the canonical form and the range kept by a write,
equal contents are equal data; and the same for the cells and sequences of a state. -/

namespace Sys2Proof.Machine

theorem Memory.get?_set (m : Memory) (a : Nat) (v : Byte) (c : Nat) :
    Memory.get? (Memory.set m a v) c = if c = a then some v else Memory.get? m c := by
  induction m with
  | nil => simp [Memory.set, Memory.get?]
  | cons x rest ih =>
    obtain ⟨b, w⟩ := x
    simp only [Memory.set]
    split
    · simp [Memory.get?]
    · split
      · subst_vars; simp only [Memory.get?]; split <;> rfl
      · simp only [Memory.get?, ih]
        by_cases hc : c = b
        · have hca : c ≠ a := by omega
          simp [hc]; omega
        · simp [hc]

theorem Memory.mem_set (m : Memory) (a : Nat) (v : Byte) (x : Host.Cell) (h : x ∈ Memory.set m a v) :
    x = (a, v) ∨ x ∈ m := by
  induction m with
  | nil => simpa [Memory.set] using h
  | cons y rest ih =>
    obtain ⟨b, w⟩ := y
    simp only [Memory.set] at h
    split at h
    · simpa using h
    · split at h
      · simp only [List.mem_cons] at h ⊢
        tauto
      · simp only [List.mem_cons] at h ⊢
        rcases h with h | h
        · tauto
        · rcases ih h with h | h <;> tauto

/-- A write keeps the canonical form. -/
theorem Memory.set_wf (m : Memory) (a : Nat) (v : Byte) (h : Memory.wf m) : Memory.wf (Memory.set m a v) := by
  induction m with
  | nil => simp [Memory.set, Memory.wf]
  | cons x rest ih =>
    obtain ⟨b, w⟩ := x
    obtain ⟨hb, hr⟩ := List.pairwise_cons.mp h
    simp only [Memory.set]
    split
    · refine List.pairwise_cons.mpr ⟨?_, h⟩
      intro y hy
      rcases List.mem_cons.mp hy with rfl | hy
      · assumption
      · have := hb y hy; simp only at this ⊢; omega
    · split
      · subst_vars
        exact List.pairwise_cons.mpr ⟨hb, hr⟩
      · refine List.pairwise_cons.mpr ⟨?_, ih hr⟩
        intro y hy
        rcases Memory.mem_set _ _ _ _ hy with rfl | hy
        · simp only; omega
        · exact hb y hy

/-- A write below MAXLEN keeps every written cell below MAXLEN. -/
theorem cellsInRange_set (c : Config) (m : Memory) (a : Nat) (v : Byte) (h : cellsInRange c m)
    (ha : inRange c a = true) : cellsInRange c (Memory.set m a v) := by
  intro x hx
  rcases Memory.mem_set _ _ _ _ hx with rfl | hx
  · exact ha
  · exact h x hx

theorem Memory.get?_none_of_lt (m : Memory) (a : Nat) (h : ∀ x ∈ m, a < x.1) : Memory.get? m a = none := by
  induction m with
  | nil => rfl
  | cons x rest ih =>
    obtain ⟨b, w⟩ := x
    have hb : a < b := h (b, w) (by simp)
    simp only [Memory.get?]
    rw [if_neg (by omega)]
    exact ih fun y hy => h y (by simp [hy])

/-- Equal contents are equal data: two canonical buffers with the same cells are the same list. -/
theorem Memory.eq_of_get? (m n : Memory) (hm : Memory.wf m) (hn : Memory.wf n)
    (h : ∀ a, Memory.get? m a = Memory.get? n a) : m = n := by
  induction m generalizing n with
  | nil =>
    cases n with
    | nil => rfl
    | cons y t =>
      have := h y.1
      simp [Memory.get?] at this
  | cons x r ih =>
    obtain ⟨b, w⟩ := x
    cases n with
    | nil =>
      have := h b
      simp [Memory.get?] at this
    | cons y t =>
      obtain ⟨c, z⟩ := y
      obtain ⟨hb, hr⟩ := List.pairwise_cons.mp hm
      obtain ⟨hc, ht⟩ := List.pairwise_cons.mp hn
      have hbc : b = c := by
        rcases Nat.lt_trichotomy b c with hlt | heq | hgt
        · have h1 := h b
          simp only [Memory.get?, if_true] at h1
          rw [if_neg (by omega), Memory.get?_none_of_lt t b fun y hy => by
            have := hc y hy; simp only at this; omega] at h1
          simp at h1
        · exact heq
        · have h1 := h c
          simp only [Memory.get?, if_true] at h1
          rw [if_neg (by omega), Memory.get?_none_of_lt r c fun y hy => by
            have := hb y hy; simp only at this; omega] at h1
          simp at h1
      subst hbc
      have hw : w = z := by
        have := h b
        simpa [Memory.get?] using this
      subst hw
      have hrt : r = t := by
        refine ih t hr ht fun a => ?_
        by_cases ha : a = b
        · subst ha
          rw [Memory.get?_none_of_lt r a hb, Memory.get?_none_of_lt t a hc]
        · have := h a
          simpa [Memory.get?, ha] using this
      rw [hrt]

/-- A cell's byte depends on its buffer and the epoch alone. -/
theorem readCell_congr {s t : State} {u : UnitId} {b : Buf} (h : (t.unit u).buf b = (s.unit u).buf b)
    (he : t.epoch = s.epoch) (a : Nat) : readCell t u b a = readCell s u b a := by
  simp only [readCell, h, he]

theorem readCell_writeSrc (s : State) (u : UnitId) (a : Nat) (v : Byte) (w : UnitId) (b : Buf) (c : Nat) :
    readCell (writeSrc s u a v) w b c = if w = u ∧ b = .src ∧ c = a then v else readCell s w b c := by
  cases u <;> cases w <;> cases b <;>
    simp [readCell, writeSrc, State.unit, State.setUnit, UnitRegs.buf, Memory.get?_set] <;>
    split <;> simp_all

theorem readCell_writeDst (s : State) (u : UnitId) (a : Nat) (v : Byte) (w : UnitId) (b : Buf) (c : Nat) :
    readCell (writeDst s u a v) w b c = if w = u ∧ b = .dst ∧ c = a then v else readCell s w b c := by
  cases u <;> cases w <;> cases b <;>
    simp [readCell, writeDst, State.unit, State.setUnit, UnitRegs.buf, Memory.get?_set] <;>
    split <;> simp_all

@[simp] theorem readSeq_length (s : State) (u : UnitId) (b : Buf) (m : Nat) : (readSeq s u b m).length = m := by
  simp [readSeq]

@[simp] theorem readSeq_zero (s : State) (u : UnitId) (b : Buf) : readSeq s u b 0 = [] := rfl

theorem readSeq_succ (s : State) (u : UnitId) (b : Buf) (m : Nat) :
    readSeq s u b (m + 1) = readSeq s u b m ++ [readCell s u b m] := by
  simp [readSeq, List.range_succ]

theorem readSeq_getElem? (s : State) (u : UnitId) (b : Buf) (m i : Nat) (h : i < m) :
    (readSeq s u b m)[i]? = some (readCell s u b i) := by
  simp [readSeq, h]

theorem readSeq_take (s : State) (u : UnitId) (b : Buf) (m n : Nat) (h : m ≤ n) :
    (readSeq s u b n).take m = readSeq s u b m := by
  simp [readSeq, ← List.map_take, List.take_range, Nat.min_eq_left h]

theorem readSeq_congr {s t : State} {u : UnitId} {b : Buf} {m : Nat}
    (h : ∀ a < m, readCell t u b a = readCell s u b a) : readSeq t u b m = readSeq s u b m := by
  simp only [readSeq]
  exact List.map_congr_left fun a ha => h a (List.mem_range.mp ha)

/-- The first eight cells from `m` on are one group of the sequence. -/
theorem readSeq_add_eight (s : State) (m : Nat) :
    readSeq s .dec .src (m + 8) = readSeq s .dec .src m ++ (readGroup s m).toList := by
  simp [readSeq, readGroup, Group.ofFn, Group.toList, decReadOffset, List.range_succ]

end Sys2Proof.Machine
end

