-- ==== Sys2Proof/Laws/Steps.lean ====
section
/-! SUPPORT. Said once for each shared operation and for the step: everything it can do when it answers
a next state. Later proofs cite these instead of unfolding. -/

namespace Sys2Proof.Machine

/-- What START does when it completes (R153). -/
theorem startUnit_next {u : UnitId} {s t : State} (h : startUnit u s = .next t) :
    ((s.unit u).phase = .busy ∧ t = s) ∨
    (u = .enc ∧ s.enc.phase ≠ .busy ∧ fits s.cfg (encOutLen s.enc.len) = true ∧
      t = { s with enc := startRegs s.enc, encK := 0 }) ∨
    (u = .dec ∧ s.dec.phase ≠ .busy ∧
      t = { s with
            dec := startRegs s.dec
            decSub := .check
            decErrKind := .ok
            decErrValue := 0x00#8
            decErrOffset := 0 }) := by
  unfold startUnit at h
  split at h
  · cases h; exact .inl ⟨‹_›, rfl⟩
  · cases u with
    | enc =>
      simp only at h
      split at h
      · cases h; exact .inr (.inl ⟨rfl, ‹_›, ‹_›, rfl⟩)
      · cases h
    | dec => cases h; exact .inr (.inr ⟨rfl, ‹_›, rfl⟩)

theorem startUnit_ne_fault (u : UnitId) (s : State) (f : Fault) : startUnit u s ≠ .fault f := by
  unfold startUnit
  split
  · simp
  · cases u with
    | enc => simp only; split <;> simp
    | dec => simp

/-- The five things a host operation can do when it completes (R150 to R156, and the pure functions). -/
inductive ExecEffect (s t : State) : Prop where
  | nothing (h : t = s)
  | answers (a : Answer) (h : t = answered s a)
  | starts (u : UnitId) (h : startUnit u s = .next t)
  | setsLen (u : UnitId) (v : Nat) (hp : (s.unit u).phase ≠ .busy) (hf : fits s.cfg v = true)
      (h : t = s.setUnit u { s.unit u with len := v })
  | writesSrc (u : UnitId) (a : Nat) (v : Byte) (hp : (s.unit u).phase ≠ .busy)
      (hr : inRange s.cfg a = true) (h : t = writeSrc s u a v)

theorem exec_next {i : Instr} {s t : State} (h : exec i s = .next t) : ExecEffect s t := by
  cases i with
  | encbit b => cases h; exact .answers _ rfl
  | enc8 p => cases h; exact .answers _ rfl
  | encode => exact .starts .enc h
  | decmark m => cases h; exact .answers _ rfl
  | markZero => cases h; exact .answers _ rfl
  | markOne => cases h; exact .answers _ rfl
  | markInvalid v => cases h; exact .answers _ rfl
  | dec8 g => cases h; exact .answers _ rfl
  | decode => exact .starts .dec h
  | wrr u r v =>
    cases r <;> simp only [exec, execWrr, writeLen, writeCtrl] at h <;> try cases h
    · split at h
      · exact .starts u h
      · cases h; exact .nothing rfl
    · split at h
      · cases h
      · split at h
        · cases h; exact .setsLen u v ‹_› ‹_› rfl
        · cases h
  | rdr u r =>
    simp only [exec, execRdr] at h
    split at h
    · cases h; exact .answers _ rfl
    · cases h
  | wrs u a v =>
    simp only [exec, execWrs] at h
    split at h
    · cases h
    · split at h
      · cases h; exact .writesSrc u a v ‹_› ‹_› rfl
      · cases h
  | rds u a =>
    simp only [exec, execRds] at h
    split at h
    · cases h; exact .answers _ rfl
    · cases h
  | rdd u a =>
    simp only [exec, execRdd] at h
    split at h
    · cases h; exact .answers _ rfl
    · cases h

/-- No host operation faults: it completes or is refused (R193). -/
theorem exec_ne_fault (i : Instr) (s : State) (f : Fault) : exec i s ≠ .fault f := by
  cases i with
  | encode => exact startUnit_ne_fault _ _ _
  | decode => exact startUnit_ne_fault _ _ _
  | wrr u r v =>
    cases r <;> simp only [exec, execWrr, writeLen, writeCtrl] <;> try simp
    · split
      · exact startUnit_ne_fault _ _ _
      · simp
    · split
      · simp
      · split <;> simp
  | rdr u r => simp only [exec, execRdr]; split <;> simp
  | wrs u a v =>
    simp only [exec, execWrs]
    split
    · simp
    · split <;> simp
  | rds u a => simp only [exec, execRds]; split <;> simp
  | rdd u a => simp only [exec, execRdd]; split <;> simp
  | _ => simp [exec, execEncbit, execEnc8, execDecmark, execMarkZero, execMarkOne, execMarkInvalid, execDec8]

/-- The state after the ENC emit step, written out (R110). -/
theorem encEmit_eq (s : State) :
    encEmit s =
      { s with
        enc := { s.enc with
                 pos := if s.encK = 7 then s.enc.pos + 1 else s.enc.pos
                 dst := Memory.set s.enc.dst (encWriteOffset s.enc.pos s.encK)
                   (encbit ((readCell s .enc .src s.enc.pos).getLsbD (encBitIndex s.encK))) }
        encK := if s.encK = 7 then 0 else s.encK + 1 } := by
  simp only [encEmit, writeDst, State.setUnit_enc, State.unit_enc]
  split <;> rfl

/-- What a turn of unit ENC does when it completes (R109). -/
theorem encTurn_next {s t : State} (h : encTurn s = .next t) :
    (s.enc.phase ≠ .busy ∧ t = s) ∨
    (s.enc.phase = .busy ∧ s.enc.pos < s.enc.n ∧ t = encEmit s) ∨
    (s.enc.phase = .busy ∧ s.enc.pos = s.enc.n ∧ t = encFinal s) := by
  unfold encTurn at h
  split at h
  · split at h
    · cases h; exact .inr (.inl ⟨‹_›, ‹_›, rfl⟩)
    · split at h
      · cases h; exact .inr (.inr ⟨‹_›, ‹_›, rfl⟩)
      · cases h
  · cases h; exact .inl ⟨by simp_all, rfl⟩
  · cases h; exact .inl ⟨by simp_all, rfl⟩

theorem encTurn_not_busy {s : State} (h : s.enc.phase ≠ .busy) : encTurn s = .next s := by
  unfold encTurn; split <;> simp_all

theorem encTurn_emit {s : State} (h : s.enc.phase = .busy) (hp : s.enc.pos < s.enc.n) :
    encTurn s = .next (encEmit s) := by
  simp [encTurn, h, hp]

theorem encTurn_final {s : State} (h : s.enc.phase = .busy) (hp : s.enc.pos = s.enc.n) :
    encTurn s = .next (encFinal s) := by
  simp [encTurn, h, hp]

/-- The state after a DEC group step that decoded, written out (R136). -/
theorem decGroup_ok {s : State} {p : Byte} (h : dec8 (readGroup s s.dec.pos) = .ok p) :
    decGroup s =
      { s with dec := { s.dec with
                        pos := s.dec.pos + 8
                        dst := Memory.set s.dec.dst (decWriteOffset s.dec.pos) p } } := by
  simp only [decGroup, h, writeDst, State.setUnit_dec, State.unit_dec]

theorem decGroup_invalid {s : State} {j : Fin 8} {v : Byte}
    (h : dec8 (readGroup s s.dec.pos) = .invalid j v) :
    decGroup s = raiseError (.invalidMarker v (decErrOffset s.dec.pos j)) s := by
  simp only [decGroup, h]

/-- What a turn of unit DEC does when it completes (R140). -/
theorem decTurn_next {s t : State} (h : decTurn s = .next t) :
    (s.dec.phase ≠ .busy ∧ t = s) ∨
    (s.dec.phase = .busy ∧ s.decSub = .check ∧ t = decCheck s) ∨
    (s.dec.phase = .busy ∧ s.decSub = .scan ∧ s.dec.pos < s.dec.n ∧ t = decGroup s) ∨
    (s.dec.phase = .busy ∧ s.decSub = .scan ∧ s.dec.pos = s.dec.n ∧ t = decFinal s) := by
  unfold decTurn at h
  split at h
  · cases h; exact .inr (.inl ⟨‹_›, ‹_›, rfl⟩)
  · split at h
    · cases h; exact .inr (.inr (.inl ⟨‹_›, ‹_›, ‹_›, rfl⟩))
    · split at h
      · cases h; exact .inr (.inr (.inr ⟨‹_›, ‹_›, ‹_›, rfl⟩))
      · cases h
  · cases h; exact .inl ⟨by simp_all, rfl⟩
  · cases h; exact .inl ⟨by simp_all, rfl⟩

theorem decTurn_not_busy {s : State} (h : s.dec.phase ≠ .busy) : decTurn s = .next s := by
  unfold decTurn; split <;> simp_all

theorem decTurn_check {s : State} (h : s.dec.phase = .busy) (hs : s.decSub = .check) :
    decTurn s = .next (decCheck s) := by
  simp [decTurn, h, hs]

theorem decTurn_group {s : State} (h : s.dec.phase = .busy) (hs : s.decSub = .scan)
    (hp : s.dec.pos < s.dec.n) : decTurn s = .next (decGroup s) := by
  simp [decTurn, h, hs, hp]

theorem decTurn_final {s : State} (h : s.dec.phase = .busy) (hs : s.decSub = .scan)
    (hp : s.dec.pos = s.dec.n) : decTurn s = .next (decFinal s) := by
  simp [decTurn, h, hs, hp]

/-- What a turn of the host does when it completes: nothing pending, or the decoded operation. -/
theorem hostTurn_next {s t : State} (h : hostTurn s = .next t) :
    (s.requests = [] ∧ t = s) ∨
    (∃ r rs i, s.requests = r :: rs ∧ decode r = .ok i ∧ exec i { s with requests := rs } = .next t) := by
  unfold hostTurn at h
  split at h
  · cases h; exact .inl ⟨‹_›, rfl⟩
  · split at h
    · exact .inr ⟨_, _, _, ‹_›, ‹_›, h⟩
    · cases h

/-- What a step does when it completes: the turn of one agent, from the state with that turn taken. -/
theorem step_next {s t : State} (h : step s = .next t) :
    ((nextTurn s).1 = .host ∧ hostTurn (nextTurn s).2 = .next t) ∨
    ((nextTurn s).1 = .enc ∧ encTurn (nextTurn s).2 = .next t) ∨
    ((nextTurn s).1 = .dec ∧ decTurn (nextTurn s).2 = .next t) ∨
    ((nextTurn s).1 = .platform ∧ t = resetEvent (nextTurn s).2) := by
  simp only [step, takeTurn] at h
  split at h
  · exact .inl ⟨‹_›, h⟩
  · exact .inr (.inl ⟨‹_›, h⟩)
  · exact .inr (.inr (.inl ⟨‹_›, h⟩))
  · cases h; exact .inr (.inr (.inr ⟨‹_›, rfl⟩))

end Sys2Proof.Machine
end

