-- ==== Sys2Proof/Laws/Inv.lean ====
section
/-! SUPPORT. What the invariant's parts depend on, so that an operation that leaves a part's fields alone
keeps that part; and how lengths and offsets compare with MAXLEN. -/

namespace Sys2Proof.Machine

theorem fits_zero (c : Config) : fits c 0 = true := by
  unfold fits; split <;> simp

theorem fits_mono {c : Config} {m n : Nat} (h : fits c n = true) (hmn : m ≤ n) : fits c m = true := by
  unfold fits at *
  split at h <;> simp_all
  omega

theorem inRange_of_fits {c : Config} {a m : Nat} (h : fits c m = true) (ha : a < m) : inRange c a = true := by
  unfold fits at h
  unfold inRange
  split at h <;> simp_all
  omega

@[simp] theorem writtenBelow_zero (m : Memory) : writtenBelow m 0 :=
  fun _ h => absurd h (Nat.not_lt_zero _)

/-- The sequence in a buffer depends on that buffer and the epoch. -/
theorem readSeq_of_buf {s t : State} {u : UnitId} {b : Buf} (h : (t.unit u).buf b = (s.unit u).buf b)
    (he : t.epoch = s.epoch) (m : Nat) : readSeq t u b m = readSeq s u b m :=
  readSeq_congr fun a _ => readCell_congr h he a

theorem BuffersOk.congr {s t : State} (h : BuffersOk s) (hc : t.cfg = s.cfg) (h1 : t.enc.src = s.enc.src)
    (h2 : t.enc.dst = s.enc.dst) (h3 : t.dec.src = s.dec.src) (h4 : t.dec.dst = s.dec.dst) :
    BuffersOk t := by
  simpa only [BuffersOk, hc, h1, h2, h3, h4] using h

theorem EncOk.congr {s t : State} (h : EncOk s) (hc : t.cfg = s.cfg) (he : t.enc = s.enc)
    (hk : t.encK = s.encK) (hp : t.epoch = s.epoch) : EncOk t := by
  have hr : ∀ b m, readSeq t .enc b m = readSeq s .enc b m :=
    fun b m => readSeq_of_buf (by simp [he]) hp m
  simpa only [EncOk, hc, he, hk, hr] using h

theorem DecOk.congr {s t : State} (h : DecOk s) (hc : t.cfg = s.cfg) (he : t.dec = s.dec)
    (hs : t.decSub = s.decSub) (hk : t.decErrKind = s.decErrKind) (hv : t.decErrValue = s.decErrValue)
    (ho : t.decErrOffset = s.decErrOffset) (hp : t.epoch = s.epoch) : DecOk t := by
  have hr : ∀ b m, readSeq t .dec b m = readSeq s .dec b m :=
    fun b m => readSeq_of_buf (by simp [he]) hp m
  simpa only [DecOk, hc, he, hs, hk, hv, ho, hr] using h

/-- Taking a turn changes no part of the invariant. -/
theorem inv_nextTurn {s : State} (h : s.Inv) : (nextTurn s).2.Inv := by
  obtain ⟨ts, d, e⟩ := nextTurn_state s
  rw [e]
  exact ⟨BuffersOk.congr h.1 rfl rfl rfl rfl rfl, EncOk.congr h.2.1 rfl rfl rfl rfl,
    DecOk.congr h.2.2 rfl rfl rfl rfl rfl rfl rfl⟩

/-- Giving an answer changes no part of the invariant. -/
theorem inv_answered {s : State} (h : s.Inv) (a : Answer) : (answered s a).Inv :=
  ⟨BuffersOk.congr h.1 rfl rfl rfl rfl rfl, EncOk.congr h.2.1 rfl rfl rfl rfl,
    DecOk.congr h.2.2 rfl rfl rfl rfl rfl rfl rfl⟩

end Sys2Proof.Machine
end

