-- ==== Sys2Proof/Laws/PerInstr.lean ====
section
/-! SUPPORT. One law per instruction: its encoded form has the shape and the width of its format. -/

namespace Sys2Proof.Laws.FormatWidth

/-- How many bytes of pattern a kind's format takes: eight for `GROUP`, one for every other (R70). -/
def wordBytes (k : Kind) : Nat :=
  match k with
  | .dec8 => 8
  | _ => 1

/-- How many bits a byte of the format uses (R70): `BIT` 1, `CMD` 5, `REGNO` 4, the unit bit of `BUFACC`
1, and 8 in `PLAIN`, `MARK` and `GROUP`. -/
def byteBits (k : Kind) : Nat :=
  match k with
  | .encbit => 1
  | .cmd => 5
  | .wrr => 4
  | .rdr => 4
  | .wrs => 1
  | .rds => 1
  | .rdd => 1
  | _ => 8

/-- The encoded form of `i` has its format's length, and no bit above its format's width is set. -/
def Statement (i : Instr) : Prop :=
  (encode i).word.length = wordBytes (encode i).kind ∧
  ∀ b ∈ (encode i).word, b.toNat < 2 ^ byteBits (encode i).kind

theorem encbit (b : Bool) : Statement (.encbit b) := by cases b <;> simp [Statement, encode, wordBytes, byteBits]
theorem enc8 (p : Byte) : Statement (.enc8 p) := ⟨rfl, fun b _ => b.isLt⟩
theorem encode : Statement .encode := by simp [Statement, Sys2Proof.encode, wordBytes, byteBits]
theorem decmark (m : Byte) : Statement (.decmark m) := ⟨rfl, fun b _ => b.isLt⟩
theorem markZero : Statement .markZero := ⟨rfl, fun b _ => b.isLt⟩
theorem markOne : Statement .markOne := ⟨rfl, fun b _ => b.isLt⟩
theorem markInvalid (v : Byte) : Statement (.markInvalid v) := ⟨rfl, fun b _ => b.isLt⟩
theorem dec8 (g : Group) : Statement (.dec8 g) := ⟨rfl, fun b _ => b.isLt⟩
theorem decode : Statement .decode := by simp [Statement, Sys2Proof.encode, wordBytes, byteBits]
theorem wrr (u : UnitId) (r : RegIdx) (v : Nat) : Statement (.wrr u r v) := by
  cases u <;> cases r <;> simp [Statement, Sys2Proof.encode, wordBytes, byteBits, regno, unitBit, regIndex]
theorem rdr (u : UnitId) (r : RegIdx) : Statement (.rdr u r) := by
  cases u <;> cases r <;> simp [Statement, Sys2Proof.encode, wordBytes, byteBits, regno, unitBit, regIndex]
theorem wrs (u : UnitId) (a : Nat) (v : Byte) : Statement (.wrs u a v) := by
  cases u <;> simp [Statement, Sys2Proof.encode, wordBytes, byteBits, unitBit]
theorem rds (u : UnitId) (a : Nat) : Statement (.rds u a) := by
  cases u <;> simp [Statement, Sys2Proof.encode, wordBytes, byteBits, unitBit]
theorem rdd (u : UnitId) (a : Nat) : Statement (.rdd u a) := by
  cases u <;> simp [Statement, Sys2Proof.encode, wordBytes, byteBits, unitBit]

end Sys2Proof.Laws.FormatWidth
end

