-- ==== Sys2Proof/Tests/Slice0.lean ====
section
/-! SUPPORT. Small tests: the smoke test of `WellFormed`, words written out from the spec's encodings, one
step per test on small states with results from spec/95_test_vectors.md, and for each statement with
hypotheses a witness that meets them. -/

open Sys2Proof Sys2Proof.Machine

namespace Sys2Proof.Tests

/-! ## Helpers -/

/-- A buffer holding the bytes from offset `a` on. -/
def cells (a : Nat) (bs : List Byte) : Memory :=
  match bs with
  | [] => []
  | b :: rest => (a, b) :: cells (a + 1) rest

/-- The state an outcome goes on with. -/
def after (o : Host.Outcome State Fault Refusal) : State :=
  match o with
  | .next t => t
  | .fault _ => State.reset
  | .refused _ => State.reset

/-- The answer an outcome gives back, if it goes on. -/
def answerOf (o : Host.Outcome State Fault Refusal) : Option Answer := (after o).answer

/-- The group of `0xB0` (T1). -/
def groupB0 : List Byte := [0xFF#8, 0x00#8, 0xFF#8, 0xFF#8, 0x00#8, 0x00#8, 0x00#8, 0x00#8]

/-- V17: the group of `0xA5`, then a group whose position 3 is `0xFE`. -/
def v17 : List Byte :=
  [0xFF#8, 0x00#8, 0xFF#8, 0x00#8, 0x00#8, 0xFF#8, 0x00#8, 0xFF#8] ++
  [0x00#8, 0x00#8, 0x00#8, 0xFE#8, 0x00#8, 0x00#8, 0x00#8, 0x00#8]

/-- Reset, then `[0xB0]` loaded into ENC and the bytes `e` into DEC. -/
def loaded (e : List Byte) : State :=
  { State.reset with
    enc := { UnitRegs.reset with len := 1, src := cells 0 [0xB0#8] }
    dec := { UnitRegs.reset with len := e.length, src := cells 0 e } }

/-- Reset with an instance of `MAXLEN = 64` (section 2.7). -/
def small : State := { State.reset with cfg := ⟨some 64⟩ }

/-- ENC in the middle of an ENCODE of `[0xB0]`, after `k` emit steps; DEC as loaded with V17. -/
def encMid (k : Fin 8) : State :=
  { loaded v17 with
    enc := ⟨.busy, 1, 0, 1, 0, cells 0 [0xB0#8], cells 0 (groupB0.take k.val)⟩
    encK := k }

/-- ENC with all eight markers of `0xB0` written, before its final step. -/
def encEnd : State :=
  { loaded v17 with enc := ⟨.busy, 1, 0, 1, 1, cells 0 [0xB0#8], cells 0 groupB0⟩ }

/-- ENC with the result of `[0xB0]`. -/
def encDone : State :=
  { loaded v17 with enc := ⟨.done, 1, 8, 1, 1, cells 0 [0xB0#8], cells 0 groupB0⟩ }

/-- DEC started on `e`, before its check step. -/
def decStart (e : List Byte) : State :=
  { loaded e with dec := ⟨.busy, e.length, 0, e.length, 0, cells 0 e, []⟩ }

/-- DEC scanning `e`, at `pos`, with `out` decoded. -/
def decMid (e : List Byte) (pos : Nat) (out : List Byte) : State :=
  { loaded e with
    dec := ⟨.busy, e.length, 0, e.length, pos, cells 0 e, cells 0 out⟩
    decSub := .scan }

/-- DEC with the result of `groupB0`. -/
def decDone : State :=
  { loaded groupB0 with
    dec := ⟨.done, 8, 1, 8, 8, cells 0 groupB0, cells 0 [0xB0#8]⟩
    decSub := .scan }

/-- DEC with the error of V17. -/
def decFailed : State :=
  { loaded v17 with
    dec := ⟨.done, 16, 0, 16, 8, cells 0 v17, cells 0 [0xA5#8]⟩
    decSub := .scan
    decErrKind := .invalidMarker
    decErrValue := 0xFE#8
    decErrOffset := 11 }

/-- `s` with its turns given. -/
def withTurns (s : State) (ts : List Turn) : State := { s with turns := ts }

/-! ## WellFormed -/

/-- `0x00` is `MARK.ZERO`, not `MARK.INVALID` (R122). -/
theorem test_wellFormed_refuses_zero : WellFormed (.markInvalid 0x00#8) = false := by decide

/-- `0xFF` is `MARK.ONE`, not `MARK.INVALID` (R122). -/
theorem test_wellFormed_refuses_one : WellFormed (.markInvalid 0xFF#8) = false := by decide

theorem test_wellFormed_admits_ends :
    WellFormed (.markInvalid 0x01#8) = true ∧ WellFormed (.markInvalid 0xFE#8) = true := by decide

/-! ## Decoding: words written out from the spec -/

/-- `BIT`, one bit (R70). -/
theorem test_decode_encbit :
    decode ⟨.encbit, [0b0#8], []⟩ = .ok (.encbit false) ∧
    decode ⟨.encbit, [0b1#8], []⟩ = .ok (.encbit true) := by decide

/-- `PLAIN`, `hgfedcba` with `h` = bit 7 (R71). -/
theorem test_decode_enc8 : decode ⟨.enc8, [0b10110000#8], []⟩ = .ok (.enc8 0xB0#8) := by decide

/-- `CMD` `00001` and `10001` (R79). -/
theorem test_decode_commands :
    decode ⟨.cmd, [0b00001#8], []⟩ = .ok .encode ∧ decode ⟨.cmd, [0b10001#8], []⟩ = .ok .decode := by
  decide

/-- `MARK`, `mmmmmmmm` (R72). -/
theorem test_decode_decmark : decode ⟨.decmark, [0b00000001#8], []⟩ = .ok (.decmark 0x01#8) := by decide

/-- The three code rows (R80): `00000000`, `11111111`, any other pattern. -/
theorem test_decode_mark :
    decode ⟨.mark, [0b00000000#8], []⟩ = .ok .markZero ∧
    decode ⟨.mark, [0b11111111#8], []⟩ = .ok .markOne ∧
    decode ⟨.mark, [0b10000000#8], []⟩ = .ok (.markInvalid 0x80#8) := by decide

/-- `GROUP`, eight bytes in sequence order (R73). -/
theorem test_decode_dec8 :
    decode ⟨.dec8, groupB0, []⟩ =
      .ok (.dec8 ⟨0xFF#8, 0x00#8, 0xFF#8, 0xFF#8, 0x00#8, 0x00#8, 0x00#8, 0x00#8⟩) := by decide

/-- `REGNO`: regno 10 is `DEC.LEN`, regno 14 names no register (R76; P2 line 17). -/
theorem test_decode_wrr :
    decode ⟨.wrr, [0b1010#8], [16]⟩ = .ok (.wrr .dec .len 16) ∧
    decode ⟨.wrr, [0b1110#8], [0]⟩ = .ok (.wrr .dec .none6 0) := by decide

/-- Every register number (R76). -/
theorem test_decode_rdr :
    (List.range 16).map (fun n => decode ⟨.rdr, [BitVec.ofNat 8 n], []⟩) =
      [.ok (.rdr .enc .ctrl), .ok (.rdr .enc .status), .ok (.rdr .enc .len), .ok (.rdr .enc .outLen),
       .ok (.rdr .enc .errValue), .ok (.rdr .enc .errOffset), .ok (.rdr .enc .none6), .ok (.rdr .enc .none7),
       .ok (.rdr .dec .ctrl), .ok (.rdr .dec .status), .ok (.rdr .dec .len), .ok (.rdr .dec .outLen),
       .ok (.rdr .dec .errValue), .ok (.rdr .dec .errOffset), .ok (.rdr .dec .none6),
       .ok (.rdr .dec .none7)] := by decide

/-- `BUFACC`: the unit bit, then offset and byte as operands (R70; P3 line 14). -/
theorem test_decode_buffer :
    decode ⟨.wrs, [0b1#8], [11, 0xFF]⟩ = .ok (.wrs .dec 11 0xFF#8) ∧
    decode ⟨.rds, [0b0#8], [0]⟩ = .ok (.rds .enc 0) ∧
    decode ⟨.rdd, [0b0#8], [8]⟩ = .ok (.rdd .enc 8) := by decide

/-- What is no operation is refused by name: bits above a format, a `CMD` of `ENC.STATUS`, a wrong shape,
a byte operand of 256. -/
theorem test_decode_rejects :
    decode ⟨.encbit, [2#8], []⟩ = .error (.bitsAboveFormat .encbit) ∧
    decode ⟨.cmd, [0b00011#8], []⟩ = .error (.notACommand 0x03#8) ∧
    decode ⟨.cmd, [0b100001#8], []⟩ = .error (.bitsAboveFormat .cmd) ∧
    decode ⟨.rdr, [16#8], []⟩ = .error (.bitsAboveFormat .rdr) ∧
    decode ⟨.rdd, [2#8], [0]⟩ = .error (.bitsAboveFormat .rdd) ∧
    decode ⟨.dec8, [0xFF#8], []⟩ = .error (.wrongShape .dec8) ∧
    decode ⟨.wrr, [0b0010#8], []⟩ = .error (.wrongShape .wrr) ∧
    decode ⟨.wrs, [0b0#8], [0, 256]⟩ = .error (.byteOutOfRange 256) := by decide

/-- Words of the table with no kind: the fixed rows, the catch-all row, and the one 64-bit row, with the
model's choice of byte order (log 18). -/
theorem test_decodeTableWord :
    decodeTableWord 5 0x01 = some .encode ∧ decodeTableWord 8 0x01 = some .encode ∧
    decodeTableWord 8 0x11 = some .decode ∧
    decodeTableWord 8 0x00 = some .markZero ∧ decodeTableWord 8 0xFF = some .markOne ∧
    decodeTableWord 8 0x80 = some (.markInvalid 0x80#8) ∧
    decodeTableWord 64 0x01FFFFFFFFFFFFFF =
      some (.dec8 ⟨0xFF#8, 0xFF#8, 0xFF#8, 0xFF#8, 0xFF#8, 0xFF#8, 0xFF#8, 0x01#8⟩) ∧
    decodeTableWord 16 0 = none := by decide

/-- The very next step runs the placed word: DECODE, and a marker code. -/
theorem test_withFetchWord :
    step (State.reset.withFetchWord 8 0x11) = exec .decode State.reset ∧
    step (State.reset.withFetchWord 8 0xFF) = exec .markOne State.reset := ⟨rfl, rfl⟩

/-! ## The pure functions and their instructions -/

/-- Section 2.1. -/
theorem test_encbit :
    answerOf (exec (.encbit false) State.reset) = some (.byte 0x00#8) ∧
    answerOf (exec (.encbit true) State.reset) = some (.byte 0xFF#8) := by decide

/-- Section 2.2: `0x34` tells MSB first from LSB first. -/
theorem test_enc8 :
    answerOf (exec (.enc8 0x34#8) State.reset) =
      some (.group ⟨0x00#8, 0x00#8, 0xFF#8, 0xFF#8, 0x00#8, 0xFF#8, 0x00#8, 0x00#8⟩) := by decide

/-- Section 2.2: the shift form for `0xB0`. -/
theorem test_shiftOut : shiftOut 8 0xB0#8 = groupB0 := by decide

/-- Section 2.1: the nearest neighbours of the markers are not rounded. -/
theorem test_decmark :
    answerOf (exec (.decmark 0xFF#8) State.reset) = some (.mark (.bit true)) ∧
    answerOf (exec (.decmark 0xFE#8) State.reset) = some (.mark (.invalid 0xFE#8)) := by decide

/-- R121, R122. -/
theorem test_marks :
    answerOf (exec .markZero State.reset) = some (.mark (.bit false)) ∧
    answerOf (exec .markOne State.reset) = some (.mark (.bit true)) ∧
    answerOf (exec (.markInvalid 0x80#8) State.reset) = some (.mark (.invalid 0x80#8)) := by decide

/-- Section 2.4: position 3 is bit 4. -/
theorem test_dec8_ok :
    answerOf (exec (.dec8 ⟨0x00#8, 0x00#8, 0x00#8, 0xFF#8, 0x00#8, 0x00#8, 0x00#8, 0x00#8⟩) State.reset) =
      some (.plain (.ok 0x10#8)) := by decide

/-- Section 2.4: of two invalid bytes the lower position wins. -/
theorem test_dec8_invalid :
    answerOf (exec (.dec8 ⟨0x00#8, 0x80#8, 0x01#8, 0x00#8, 0x00#8, 0x00#8, 0x00#8, 0x00#8⟩) State.reset) =
      some (.plain (.invalid 1 0x80#8)) := by decide

/-- Section 2.3. -/
theorem test_encodeSeq :
    encodeSeq [0x12#8, 0x34#8] =
      [0x00#8, 0x00#8, 0x00#8, 0xFF#8, 0x00#8, 0x00#8, 0xFF#8, 0x00#8,
       0x00#8, 0x00#8, 0xFF#8, 0xFF#8, 0x00#8, 0xFF#8, 0x00#8, 0x00#8] := by decide

/-- V8: the length error wins over the invalid byte at offset 0. -/
theorem test_decodeSeq_length :
    decodeSeq [0x01#8, 0x00#8, 0x00#8, 0x00#8, 0x00#8] = .err .lengthNotMultipleOf8 := by decide

/-- V17: the offset is absolute. -/
theorem test_decodeSeq_marker : decodeSeq v17 = .err (.invalidMarker 0xFE#8 11) := by decide

/-! ## The commands and the host access operations (section 2.7) -/

/-- `START ENC`: `STATUS = 0x01`. -/
theorem test_encode :
    statusOf (after (exec .encode (loaded v17))) .enc = 0x01#8 ∧
    (after (exec .encode (loaded v17))).enc.n = 1 := by decide

/-- With `MAXLEN = 64`, `LEN = 8` starts and `LEN = 9` is refused. -/
theorem test_encode_fits :
    statusOf (after (exec .encode { small with enc := { UnitRegs.reset with len := 8 } })) .enc = 0x01#8 ∧
    exec .encode { small with enc := { UnitRegs.reset with len := 9 } } =
      .refused (.beyondMaxLen .enc) := ⟨by decide, rfl⟩

/-- `START DEC` after a failed DECODE clears the error record (P3 line 16). -/
theorem test_decode :
    statusOf (after (exec .decode decFailed)) .dec = 0x01#8 ∧
    errValueOf (after (exec .decode decFailed)) .dec = 0x00#8 ∧
    errOffsetOf (after (exec .decode decFailed)) .dec = 0 := by decide

/-- `WRR ENC.CTRL, 0xFE` has no effect, `0x03` is START. -/
theorem test_wrr_ctrl :
    exec (.wrr .enc .ctrl 0xFE) (loaded v17) = .next (loaded v17) ∧
    exec (.wrr .enc .ctrl 0x03) (loaded v17) = exec .encode (loaded v17) := ⟨rfl, rfl⟩

/-- `WRR ENC.LEN, 2` is refused in BUSY; with `MAXLEN = 64`, 65 is refused. -/
theorem test_wrr_len :
    exec (.wrr .enc .len 2) (encMid 3) = .refused (.writeWhileBusy .enc) ∧
    exec (.wrr .enc .len 65) small = .refused (.beyondMaxLen .enc) := ⟨rfl, rfl⟩

/-- `RDR` of the status and of an index that names no register. -/
theorem test_rdr :
    answerOf (exec (.rdr .dec .status) decFailed) = some (.value 0x0A) ∧
    exec (.rdr .dec .none6) decFailed = .refused (.noSuchRegister .dec .none6) := ⟨by decide, rfl⟩

/-- `WRS ENC, 0, 0x01` in DONE: the held result is not disturbed. -/
theorem test_wrs :
    readCell (after (exec (.wrs .enc 0 0x01#8) encDone)) .enc .src 0 = 0x01#8 ∧
    answerOf (exec (.rdd .enc 0) (after (exec (.wrs .enc 0 0x01#8) encDone))) = some (.byte 0xFF#8) := by
  decide

/-- `RDS ENC, 0` in BUSY reads; with `MAXLEN = 64`, offset 64 is refused. -/
theorem test_rds :
    answerOf (exec (.rds .enc 0) (encMid 3)) = some (.byte 0xB0#8) ∧
    exec (.rds .enc 64) small = .refused (.beyondMaxLen .enc) := ⟨by decide, rfl⟩

/-- `RDD ENC, 7` reads and `RDD ENC, 8` is refused (`OUT_LEN = 8`). -/
theorem test_rdd :
    answerOf (exec (.rdd .enc 7) encDone) = some (.byte 0x00#8) ∧
    exec (.rdd .enc 8) encDone = .refused (.dstNotReadable .enc) := ⟨by decide, rfl⟩

/-! ## The steps of the units (P1 to P3) -/

/-- P1 steps 4 and 8. -/
theorem test_encEmit :
    readCell (after (encTurn (encMid 3))) .enc .dst 3 = 0xFF#8 ∧ (after (encTurn (encMid 3))).encK = 4 ∧
    (after (encTurn (encMid 7))).enc.pos = 1 ∧ (after (encTurn (encMid 7))).encK = 0 := by decide

/-- P1 step 9. -/
theorem test_encFinal :
    statusOf (after (encTurn encEnd)) .enc = 0x02#8 ∧ (after (encTurn encEnd)).enc.outLen = 8 := by decide

/-- V8 at the registers: `0x06` after one step. -/
theorem test_decCheck :
    statusOf (after (decTurn (decStart [0x01#8, 0x00#8, 0x00#8, 0x00#8, 0x00#8]))) .dec = 0x06#8 ∧
    (after (decTurn (decStart v17))).decSub = .scan := by decide

/-- P3: the second group of V17 records `0xFE` at offset 11. -/
theorem test_decGroup :
    statusOf (after (decTurn (decMid v17 8 [0xA5#8]))) .dec = 0x0A#8 ∧
    (after (decTurn (decMid v17 8 [0xA5#8]))).decErrValue = 0xFE#8 ∧
    (after (decTurn (decMid v17 8 [0xA5#8]))).decErrOffset = 11 ∧
    readCell (after (decTurn (decMid v17 0 []))) .dec .dst 0 = 0xA5#8 := by decide

/-- The final step of a DECODE of one group. -/
theorem test_decFinal :
    statusOf (after (decTurn (decMid groupB0 8 [0xB0#8]))) .dec = 0x02#8 ∧
    (after (decTurn (decMid groupB0 8 [0xB0#8]))).dec.outLen = 1 := by decide

/-- Section 2.7: RESET in any phase gives `STATUS = 0x00`. -/
theorem test_reset :
    statusOf (after (step (withTurns decFailed [.platform]))) .dec = 0x00#8 ∧
    (after (step (withTurns (encMid 3) [.platform]))).enc.phase = .idle := by decide

/-- R85: a line of a host program. -/
theorem test_instrText : instrText (.wrs .enc 0 0xB0#8) = "WRS ENC, 0, 0xB0" := by decide

/-! ## Witnesses: the hypotheses of each statement are met -/

/-- The states the witnesses use are safe. -/
theorem wit_inv_enc :
    (loaded v17).Inv ∧ (encMid 0).Inv ∧ (encMid 7).Inv ∧ encEnd.Inv ∧ encDone.Inv := by
  set_option synthInstance.maxSize 4000 in decide

theorem wit_inv_dec :
    (decStart v17).Inv ∧ (decMid v17 0 []).Inv ∧ (decMid v17 8 [0xA5#8]).Inv ∧
    (decMid groupB0 8 [0xB0#8]).Inv ∧ decDone.Inv ∧ decFailed.Inv := by
  set_option synthInstance.maxSize 4000 in decide

theorem wit_EncbitMapsBitToMarker : Machine.encbit true = Machine.encbit true := by decide

theorem wit_Enc8SerializesMsbFirst : Machine.enc8 0xFF#8 = Machine.enc8 0xFF#8 := by decide

theorem wit_MarkCodesGiveTheirBit :
    WellFormed (.markInvalid 0x01#8) = true ∧ WellFormed (.markInvalid 0xFE#8) = true ∧
    0x01#8 ≤ 0x01#8 ∧ 0x01#8 ≤ 0xFE#8 ∧ 0xFE#8 ≤ 0xFE#8 := by decide

theorem wit_Dec8GivesByteOrFirstInvalid :
    Machine.dec8 ⟨0xFF#8, 0x00#8, 0xFF#8, 0xFF#8, 0x00#8, 0x00#8, 0x00#8, 0x00#8⟩ = .ok 0xB0#8 ∧
    Machine.dec8 ⟨0x7F#8, 0x00#8, 0x00#8, 0x00#8, 0x00#8, 0x00#8, 0x00#8, 0x00#8⟩ = .invalid 0 0x7F#8 ∧
    Machine.dec8 ⟨0xFF#8, 0xFF#8, 0xFF#8, 0xFF#8, 0xFF#8, 0xFF#8, 0xFF#8, 0x01#8⟩ = .invalid 7 0x01#8 := by
  decide

theorem wit_DecodeElementwise : decodeSeq groupB0 = .ok [0xB0#8] ∧ 0 < [0xB0#8].length := by decide

theorem wit_DecodeIsExactPartialInverse : encodeSeq [0x48#8] = encodeSeq [0x48#8] := by decide

theorem wit_CodecRespectsConcatenation :
    decodeSeq groupB0 = .ok [0xB0#8] ∧ v17.length % 8 = 0 ∧
    decodeSeq v17 = .err (.invalidMarker 0xFE#8 11) := by decide

theorem wit_EncodeOutputOnlySentinels : 0xFF#8 ∈ encodeSeq [0xB0#8] := by decide

theorem wit_DocumentedProperties :
    [0x00#8, 0x00#8, 0x00#8, 0x00#8, 0x00#8].length % 8 ≠ 0 ∧
    [0xFF#8, 0xFF#8, 0xFF#8, 0xFF#8, 0xFF#8, 0xFF#8, 0xFF#8, 0x01#8].length = 8 ∧
    0x01#8 ≠ 0x00#8 ∧ 0x01#8 ≠ 0xFF#8 := by decide

theorem wit_StartBeginsAnOperation :
    (encMid 3).enc.phase = .busy ∧ (decStart v17).dec.phase = .busy ∧
    small.enc.phase ≠ .busy ∧ fits small.cfg (8 * 8) = true ∧ fits small.cfg (8 * 9) = false ∧
    encDone.enc.phase ≠ .busy ∧ fits encDone.cfg (8 * encDone.enc.len) = true ∧
    decFailed.dec.phase ≠ .busy := by decide

theorem wit_WrrByRegister :
    (small.unit .enc).phase ≠ .busy ∧ fits small.cfg 64 = true ∧ fits small.cfg 65 = false ∧
    ((encMid 3).unit .enc).phase = .busy ∧ (3 : Nat).testBit 0 = true ∧ (0xFE : Nat).testBit 0 = false := by
  decide

theorem wit_WrsStoresOneSourceByte :
    (small.unit .dec).phase ≠ .busy ∧ inRange small.cfg 63 = true ∧ inRange small.cfg 64 = false ∧
    ((decStart v17).unit .dec).phase = .busy := by decide

theorem wit_RdsReadsOneSourceByte :
    (small.unit .dec).phase ≠ .busy ∧ inRange small.cfg 63 = true ∧ inRange small.cfg 64 = false ∧
    Memory.get? (small.unit .dec).src 63 = none := by decide

theorem wit_RddReadsOneResultByte :
    (encDone.unit .enc).phase = .done ∧ 7 < (encDone.unit .enc).outLen ∧
    (State.reset.unit .enc).phase ≠ .done ∧ (encDone.unit .enc).outLen ≤ 8 := by decide

theorem wit_StatusFieldsAndLegalValues : decFailed.Inv ∧ statusOf decFailed .dec = 0x0A#8 := by
  set_option synthInstance.maxSize 4000 in decide

theorem wit_BusyShowsNoProgress :
    ((encMid 7).Inv ∧ ((encMid 7).unit .enc).phase = .busy) ∧
    ((decMid v17 8 [0xA5#8]).Inv ∧ ((decMid v17 8 [0xA5#8]).unit .dec).phase = .busy) := by
  set_option synthInstance.maxSize 4000 in decide

theorem wit_NoPartialOutputReadable :
    (decFailed.Inv ∧ decFailed.decErrKind ≠ .ok) ∧
    (encDone.Inv ∧ (encDone.unit .enc).phase = .done ∧ 7 < (encDone.unit .enc).outLen) ∧
    (decDone.Inv ∧ (decDone.unit .dec).phase = .done ∧ 0 < (decDone.unit .dec).outLen) := by
  set_option synthInstance.maxSize 4000 in decide

theorem wit_LoadPlacesTheSequence :
    (small.unit .dec).phase ≠ .busy ∧ fits small.cfg (List.replicate 64 0xFF#8).length = true := by decide

theorem wit_EncEmitStepWritesOneMarker :
    ((withTurns (encMid 0) [.enc]).turns = .enc :: [] ∧ (encMid 0).enc.phase = .busy ∧
      (encMid 0).enc.pos < (encMid 0).enc.n) ∧
    ((encMid 7).encK = 7 ∧ (encMid 7).enc.pos < (encMid 7).enc.n) := by decide

theorem wit_EncFinalStepPublishesTheResult :
    (withTurns encEnd [.enc]).turns = .enc :: [] ∧ encEnd.enc.phase = .busy ∧
    encEnd.enc.pos = encEnd.enc.n := by decide

theorem wit_DecCheckStepTestsTheLength :
    (withTurns (decStart v17) [.dec]).turns = .dec :: [] ∧ (decStart v17).dec.phase = .busy ∧
    (decStart v17).decSub = .check ∧ (decStart v17).dec.n % 8 = 0 ∧
    (decStart [0x00#8]).dec.phase = .busy ∧ (decStart [0x00#8]).dec.n % 8 ≠ 0 := by decide

theorem wit_DecGroupStepDecodesOneGroup :
    (withTurns (decMid v17 8 [0xA5#8]) [.dec]).turns = .dec :: [] ∧
    (decMid v17 8 [0xA5#8]).dec.phase = .busy ∧ (decMid v17 8 [0xA5#8]).decSub = .scan ∧
    (decMid v17 8 [0xA5#8]).dec.pos < (decMid v17 8 [0xA5#8]).dec.n ∧
    (∀ j : Fin 8, (readGroup (decMid v17 8 []) 8).get j = readCell (decMid v17 8 []) .dec .src (8 + j.val)) ∧
    Machine.dec8 (readGroup (decMid v17 8 []) 8) = .invalid 3 0xFE#8 ∧
    Machine.dec8 (readGroup (decMid v17 0 []) 0) = .ok 0xA5#8 := by decide

theorem wit_DecFinalStepPublishesTheResult :
    (withTurns (decMid groupB0 8 [0xB0#8]) [.dec]).turns = .dec :: [] ∧
    (decMid groupB0 8 [0xB0#8]).dec.phase = .busy ∧ (decMid groupB0 8 [0xB0#8]).decSub = .scan ∧
    (decMid groupB0 8 [0xB0#8]).dec.pos = (decMid groupB0 8 [0xB0#8]).dec.n := by decide

theorem wit_MarkerErrorIsPrecise :
    (decMid v17 8 [0xA5#8]).Inv ∧ (decMid v17 8 [0xA5#8]).dec.phase = .busy ∧
    takeTurn .dec (decMid v17 8 [0xA5#8]) = .next (after (takeTurn .dec (decMid v17 8 [0xA5#8]))) ∧
    (after (takeTurn .dec (decMid v17 8 [0xA5#8]))).decErrKind = .invalidMarker :=
  ⟨by set_option synthInstance.maxSize 4000 in decide,
   by set_option synthInstance.maxSize 4000 in decide, rfl,
   by set_option synthInstance.maxSize 4000 in decide⟩

theorem wit_ResetEventResetsBothUnits : (withTurns (encMid 3) [.platform]).turns = .platform :: [] := by
  decide

theorem wit_BusyUnitIsNeverStuck :
    ((encMid 7).Inv ∧ (encMid 7).enc.phase = .busy ∧ (encMid 7).dec.phase ≠ .busy) ∧
    ((decStart v17).Inv ∧ (decStart v17).dec.phase = .busy ∧ (decStart v17).enc.phase ≠ .busy) := by
  set_option synthInstance.maxSize 4000 in decide

theorem wit_UnitTurnsKeepTheirFrame :
    takeTurn .enc (encMid 7) = .next (after (takeTurn .enc (encMid 7))) ∧
    (decMid v17 0 []).Inv ∧
    takeTurn .dec (decMid v17 0 []) = .next (after (takeTurn .dec (decMid v17 0 []))) :=
  ⟨rfl, by set_option synthInstance.maxSize 4000 in decide, rfl⟩

theorem wit_UnitTurnsCommute :
    takeTurn .enc (encMid 7) = .next (after (takeTurn .enc (encMid 7))) ∧
    takeTurn .dec (encMid 7) = .next (after (takeTurn .dec (encMid 7))) := ⟨rfl, rfl⟩

/-- A step for each way a phase may change, and one for each agent that may move. -/
theorem wit_PhaseChangesOnlyAsRuled :
    step (withTurns encEnd [.enc]) = .next (after (step (withTurns encEnd [.enc]))) ∧
    step (withTurns encEnd [.platform]) = .next (after (step (withTurns encEnd [.platform]))) ∧
    step (issueNext (loaded v17) ⟨.cmd, [0x01#8], []⟩) = .next (after (exec .encode (loaded v17))) :=
  ⟨rfl, rfl, rfl⟩

theorem wit_DoneIsSticky :
    (encDone.unit .enc).phase = .done ∧
    step (issueNext encDone ⟨.wrs, [0#8], [0, 1]⟩) = .next (after (exec (.wrs .enc 0 0x01#8) encDone)) ∧
    step (issueNext encDone ⟨.cmd, [0x01#8], []⟩) = .next (after (exec .encode encDone)) ∧
    step (withTurns encDone [.platform]) = .next (after (step (withTurns encDone [.platform]))) :=
  ⟨by decide, rfl, rfl, rfl⟩

theorem wit_BusyUnitOnlyMovesForward :
    ((encMid 7).unit .enc).phase = .busy ∧
    step (withTurns (encMid 7) [.enc]) = .next (after (step (withTurns (encMid 7) [.enc]))) ∧
    (nextTurn (withTurns (encMid 7) [.enc])).1 ≠ .platform ∧
    ((decMid v17 0 []).unit .dec).phase = .busy ∧
    step (withTurns (decMid v17 0 []) [.dec]) = .next (after (step (withTurns (decMid v17 0 []) [.dec]))) ∧
    (nextTurn (withTurns (decMid v17 0 []) [.dec])).1 ≠ .platform :=
  ⟨by decide, rfl, by decide, by decide, rfl, by decide⟩

/-- An instance whose `MAXLEN` is 8, full: the offset 8 needs 4 bits, the widest write offset is 7. -/
theorem wit_OffsetsFitTheirWidth :
    offsetW ⟨some 8⟩ = some 4 ∧ 8 < 2 ^ 4 ∧
    ({ encMid 7 with cfg := ⟨some 8⟩, dec := UnitRegs.reset } : State).Inv ∧
    (encMid 7).enc.pos < (encMid 7).enc.n := by
  set_option synthInstance.maxSize 4000 in decide

theorem wit_StepKeepsConfiguration :
    step (withTurns (encMid 0) [.enc]) = .next (after (step (withTurns (encMid 0) [.enc]))) := rfl

/-- A safe state and a step that changes it: the last group step, and the last emit step. -/
theorem wit_StepKeepsInvariant :
    (withTurns (decMid v17 8 [0xA5#8]) [.dec]).Inv ∧
    step (withTurns (decMid v17 8 [0xA5#8]) [.dec]) =
      .next (after (step (withTurns (decMid v17 8 [0xA5#8]) [.dec]))) ∧
    (withTurns (encMid 7) [.enc]).Inv ∧
    step (withTurns (encMid 7) [.enc]) = .next (after (step (withTurns (encMid 7) [.enc]))) :=
  ⟨by set_option synthInstance.maxSize 4000 in decide, rfl,
   by set_option synthInstance.maxSize 4000 in decide, rfl⟩

theorem wit_SafeStateNeverFaults : encEnd.Inv := by
  set_option synthInstance.maxSize 4000 in decide

theorem wit_StepRunsTheDecodedRequest :
    (withTurns encDone [.host]).turns = .host :: [] ∧ State.reset.turns = [] ∧
    (issueNext encDone ⟨.rdd, [0#8], [7]⟩).requests = ⟨.rdd, [0#8], [7]⟩ :: [] ∧
    Sys2Proof.decode ⟨.rdd, [0#8], [7]⟩ = .ok (.rdd .enc 7) ∧
    Sys2Proof.decode ⟨.rdd, [2#8], [7]⟩ = .error (.bitsAboveFormat .rdd) ∧
    State.reset.requests = [] ∧ decodeTableWord 8 0x11 = some .decode := by decide

theorem wit_DecodeInvertsEncode :
    WellFormed (.markInvalid 0xFE#8) = true ∧ WellFormed (.wrs .dec 0 0xFF#8) = true ∧
    Sys2Proof.decode ⟨.mark, [0x01#8], []⟩ = .ok (.markInvalid 0x01#8) := by decide

theorem wit_CommandWordsWithoutEffect :
    (0x10#8 : Byte).getLsbD 0 = false ∧
    Sys2Proof.decode ⟨.cmd, [0x10#8], []⟩ = .ok (.wrr .dec .ctrl 0) ∧
    ({ encMid 3 with dec := (decStart v17).dec } : State).enc.phase = .busy ∧
    ({ encMid 3 with dec := (decStart v17).dec } : State).dec.phase = .busy ∧
    Sys2Proof.decode ⟨.cmd, [0x11#8], []⟩ = .ok .decode := by decide

/-- A schedule of nine ENC turns with DEC turns between; and the empty source. -/
theorem wit_EncodeRunsToItsResult :
    let s := withTurns (loaded v17) (.dec :: List.replicate 9 .enc)
    (s.Inv ∧ s.enc.phase ≠ .busy ∧ s.enc.len = [0xB0#8].length ∧
      fits s.cfg (8 * [0xB0#8].length) = true ∧ readSeq s .enc .src [0xB0#8].length = [0xB0#8] ∧
      s.requests = [] ∧ Turn.platform ∉ s.turns ∧ 8 * [0xB0#8].length + 1 ≤ s.turns.count .enc) := by
  set_option synthInstance.maxSize 4000 in decide

theorem wit_DecodeRunsToItsResult :
    let s := withTurns (loaded v17) [.dec, .enc, .dec, .dec]
    s.Inv ∧ s.dec.phase ≠ .busy ∧ s.dec.len = v17.length ∧ readSeq s .dec .src v17.length = v17 ∧
    s.requests = [] ∧ Turn.platform ∉ s.turns ∧ decStepCount v17 ≤ s.turns.count .dec := by
  set_option synthInstance.maxSize 4000 in decide

theorem wit_EncodeStepCount :
    (loaded v17).Inv ∧ (loaded v17).enc.phase ≠ .busy ∧
    exec .encode (loaded v17) = .next (after (exec .encode (loaded v17))) :=
  ⟨by set_option synthInstance.maxSize 4000 in decide,
   by set_option synthInstance.maxSize 4000 in decide, rfl⟩

/-- V8, V17 and V1: one step, three steps, two steps (section 2.6). -/
theorem wit_DecodeStepCount :
    ((loaded v17).Inv ∧ (loaded v17).dec.phase ≠ .busy ∧ (loaded v17).dec.len = v17.length ∧
      readSeq (loaded v17) .dec .src v17.length = v17) ∧
    exec .decode (loaded v17) = .next (after (exec .decode (loaded v17))) ∧
    decStepCount v17 = 3 ∧ decStepCount [] = 2 ∧
    decStepCount [0x01#8, 0x00#8, 0x00#8, 0x00#8, 0x00#8] = 1 :=
  ⟨by set_option synthInstance.maxSize 4000 in decide, rfl, by set_option synthInstance.maxSize 4000 in decide⟩

/-- A running ENCODE and DECODE, and a held result of each, with an agent that moves. -/
theorem wit_CallLawHoldsAtEveryStep :
    EncRunning [0xB0#8] (encMid 7) ∧ DecRunning v17 (decMid v17 8 [0xA5#8]) ∧
    EncResult [0xB0#8] encDone ∧ (nextTurn (withTurns encDone [.dec])).1 ≠ .platform ∧
    step (withTurns encDone [.dec]) = .next (after (step (withTurns encDone [.dec]))) :=
  ⟨by decide, by decide, by decide, by decide, rfl⟩

theorem wit_CallLawHoldsAtEveryStep_dec : DecResult v17 decFailed ∧ DecResult groupB0 decDone :=
  ⟨by
    show statusOf decFailed .dec = 0x0A#8 ∧ decFailed.dec.outLen = 0 ∧ decFailed.decErrValue = 0xFE#8 ∧
      decFailed.decErrOffset = 11
    decide,
   by
    show statusOf decDone .dec = 0x02#8 ∧ decDone.dec.outLen = 1 ∧ decDone.decErrValue = 0x00#8 ∧
      decDone.decErrOffset = 0 ∧ readSeq decDone .dec .dst 1 = [0xB0#8]
    decide⟩

theorem wit_RoundTripOnTheHardware :
    (loaded v17).Inv ∧ (loaded v17).enc.phase ≠ .busy ∧ (loaded v17).dec.phase ≠ .busy ∧
    fits small.cfg (8 * (List.replicate 8 0xB0#8).length) = true ∧
    fits (loaded v17).cfg (8 * [0x48#8, 0x69#8].length) = true := by
  set_option synthInstance.maxSize 4000 in decide

/-- Two safe states that differ in their history, with one source and runs that end: a DECODE of V17
after reset, and again after it failed (P3 lines 9 to 13). -/
theorem wit_ResultDependsOnTheSourceAlone_dec :
    (loaded v17).Inv ∧ decFailed.Inv ∧ (loaded v17).dec.phase ≠ .busy ∧ decFailed.dec.phase ≠ .busy ∧
    (loaded v17).dec.len = decFailed.dec.len ∧
    readSeq (loaded v17) .dec .src (loaded v17).dec.len = readSeq decFailed .dec .src (loaded v17).dec.len ∧
    (after (repeatTurn .dec 3 (after (exec .decode (loaded v17))))).dec.phase = .done ∧
    (after (repeatTurn .dec 3 (after (exec .decode decFailed)))).dec.phase = .done := by
  set_option synthInstance.maxSize 4000 in decide

/-- The same of ENCODE: of `[0xB0]` after reset, and again after it is done. -/
theorem wit_ResultDependsOnTheSourceAlone_enc :
    (loaded v17).Inv ∧ encDone.Inv ∧ (loaded v17).enc.phase ≠ .busy ∧ encDone.enc.phase ≠ .busy ∧
    (loaded v17).enc.len = encDone.enc.len ∧
    readSeq (loaded v17) .enc .src (loaded v17).enc.len = readSeq encDone .enc .src (loaded v17).enc.len ∧
    (after (repeatTurn .enc 9 (after (exec .encode (loaded v17))))).enc.phase = .done ∧
    (after (repeatTurn .enc 9 (after (exec .encode encDone)))).enc.phase = .done := by
  set_option synthInstance.maxSize 4000 in decide

end Sys2Proof.Tests
end

/-! SUPPORT. The proofs about the instance configuration and the widths of lengths and offsets
(spec/00_scope.md). -/

namespace Sys2Proof.Machine

/-! ## No operation changes the configuration (R8) -/

@[simp] theorem nextTurn_cfg (s : State) : (nextTurn s).2.cfg = s.cfg := by
  obtain ⟨ts, d, e⟩ := nextTurn_state s
  rw [e]

@[simp] theorem writeSrc_cfg (s : State) (u : UnitId) (a : Nat) (v : Byte) : (writeSrc s u a v).cfg = s.cfg :=
  State.setUnit_cfg ..

@[simp] theorem writeDst_cfg (s : State) (u : UnitId) (a : Nat) (v : Byte) : (writeDst s u a v).cfg = s.cfg :=
  State.setUnit_cfg ..

@[simp] theorem raiseError_cfg (e : CodecError) (s : State) : (raiseError e s).cfg = s.cfg := by
  rw [raiseError_frame]

@[simp] theorem encEmit_cfg (s : State) : (encEmit s).cfg = s.cfg := by
  rw [encEmit_eq]

@[simp] theorem encFinal_cfg (s : State) : (encFinal s).cfg = s.cfg := rfl

@[simp] theorem decCheck_cfg (s : State) : (decCheck s).cfg = s.cfg := by
  unfold decCheck
  split
  · exact raiseError_cfg ..
  · rfl

@[simp] theorem decGroup_cfg (s : State) : (decGroup s).cfg = s.cfg := by
  cases h : dec8 (readGroup s s.dec.pos) with
  | ok p => rw [decGroup_ok h]
  | invalid j v => rw [decGroup_invalid h, raiseError_cfg]

@[simp] theorem decFinal_cfg (s : State) : (decFinal s).cfg = s.cfg := rfl

theorem startUnit_cfg {u : UnitId} {s t : State} (h : startUnit u s = .next t) : t.cfg = s.cfg := by
  obtain ⟨-, rfl⟩ | ⟨-, -, -, rfl⟩ | ⟨-, -, rfl⟩ := startUnit_next h <;> rfl

theorem exec_cfg {i : Instr} {s t : State} (h : exec i s = .next t) : t.cfg = s.cfg := by
  cases exec_next h with
  | nothing h => rw [h]
  | answers a h => rw [h, answered_cfg]
  | starts u h => exact startUnit_cfg h
  | setsLen u v _ _ h => rw [h, State.setUnit_cfg]
  | writesSrc u a v _ _ h => rw [h, writeSrc_cfg]

theorem hostTurn_cfg {s t : State} (h : hostTurn s = .next t) : t.cfg = s.cfg := by
  obtain ⟨-, rfl⟩ | ⟨r, rs, i, -, -, he⟩ := hostTurn_next h
  · rfl
  · exact (exec_cfg he).trans rfl

theorem encTurn_cfg {s t : State} (h : encTurn s = .next t) : t.cfg = s.cfg := by
  obtain ⟨-, rfl⟩ | ⟨-, -, rfl⟩ | ⟨-, -, rfl⟩ := encTurn_next h <;> simp

theorem decTurn_cfg {s t : State} (h : decTurn s = .next t) : t.cfg = s.cfg := by
  obtain ⟨-, rfl⟩ | ⟨-, -, rfl⟩ | ⟨-, -, -, rfl⟩ | ⟨-, -, -, rfl⟩ := decTurn_next h <;> simp

/-- Settles O45: whichever agent takes the turn, its operation keeps the configuration. -/
theorem stepKeepsConfiguration : Obligations.StepKeepsConfiguration := by
  intro s t h
  rw [← nextTurn_cfg s]
  obtain ⟨-, ht⟩ | ⟨-, ht⟩ | ⟨-, ht⟩ | ⟨-, rfl⟩ := step_next h
  · exact hostTurn_cfg ht
  · exact encTurn_cfg ht
  · exact decTurn_cfg ht
  · exact resetEvent_cfg _

/-! ## The width of offsets (R9) -/

/-- `OFFSET_W` is least: a width holds MAXLEN exactly when it is no smaller. -/
theorem offsetW_le_iff {c : Config} {m w : Nat} (hm : c.maxLen = some m) (hw : offsetW c = some w) (w' : Nat) :
    w ≤ w' ↔ m < 2 ^ w' := by
  unfold offsetW at hw
  rw [hm] at hw
  cases m with
  | zero =>
    obtain rfl : 0 = w := Option.some.inj hw
    simp
  | succ x =>
    obtain rfl : Nat.log2 (x + 1) + 1 = w := Option.some.inj hw
    exact Nat.log2_lt (Nat.succ_ne_zero x)

theorem fits_iff_le {c : Config} {m : Nat} (hm : c.maxLen = some m) (x : Nat) : fits c x = true ↔ x ≤ m := by
  simp [fits, hm]

/-- What fits below MAXLEN fits in `OFFSET_W` bits. -/
theorem lt_two_pow_offsetW_of_fits {c : Config} {m w x : Nat} (hm : c.maxLen = some m)
    (hw : offsetW c = some w) (h : fits c x = true) : x < 2 ^ w :=
  ((fits_iff_le hm x).mp h).trans_lt ((offsetW_le_iff hm hw w).mp le_rfl)

/-! ## Every length and offset of a safe state fits (R175) -/

theorem EncOk.outLen_le {s : State} (h : EncOk s) : s.enc.outLen ≤ encOutLen s.enc.n := by
  obtain ⟨-, -, -, -, hidle, hbusy, hdone⟩ := h
  cases hp : s.enc.phase with
  | idle => simp [(hidle hp).2]
  | busy => simp [(hbusy hp).1]
  | done => exact (hdone hp).1.le

theorem DecOk.outLen_le {s : State} (h : DecOk s) : s.dec.outLen ≤ s.dec.n := by
  obtain ⟨-, -, -, -, hnotDone, -, -, -, -, hok, hlength, hmarker⟩ := h
  by_cases hp : s.dec.phase = .done
  · cases hk : s.decErrKind with
    | ok =>
      obtain ⟨-, -, hout, -⟩ := hok hp hk
      exact hout.trans_le (Nat.div_le_self ..)
    | lengthNotMultipleOf8 => simp [(hlength hp hk).2]
    | invalidMarker =>
      obtain ⟨-, hout, -⟩ := hmarker hp hk
      simp [hout]
  · simp [(hnotDone hp).2]

/-- An error offset is 0 or that of a byte of the source (R33). -/
theorem DecOk.errOffset_le {s : State} (h : DecOk s) : s.decErrOffset ≤ s.dec.n := by
  obtain ⟨-, -, -, -, hnotDone, hnoMarker, -, -, -, -, -, hmarker⟩ := h
  by_cases hk : s.decErrKind = .invalidMarker
  · have hp : s.dec.phase = .done := by
      by_contra hp
      simp [(hnotDone hp).1] at hk
    obtain ⟨-, -, hlt, -⟩ := hmarker hp hk
    exact hlt.le
  · simp [(hnoMarker hk).2]

section
variable {s : State} (h : s.Inv)
include h

theorem inv_fits_encOutLen : fits s.cfg (encOutLen s.enc.n) = true := by
  obtain ⟨-, ⟨-, hn, -⟩, -⟩ := h
  exact hn

theorem inv_fits_len (u : UnitId) : fits s.cfg (s.unit u).len = true := by
  obtain ⟨-, ⟨henc, -⟩, hdec, -⟩ := h
  cases u with
  | enc => exact henc
  | dec => exact hdec

theorem inv_fits_n (u : UnitId) : fits s.cfg (s.unit u).n = true := by
  cases u with
  | enc => exact fits_mono (inv_fits_encOutLen h) (Nat.le_mul_of_pos_left _ (by decide))
  | dec =>
    obtain ⟨-, -, -, hn, -⟩ := h
    exact hn

theorem inv_pos_le_n (u : UnitId) : (s.unit u).pos ≤ (s.unit u).n := by
  obtain ⟨-, ⟨-, -, henc, -⟩, -, -, hdec, -⟩ := h
  cases u with
  | enc => exact henc
  | dec => exact hdec

theorem inv_fits_pos (u : UnitId) : fits s.cfg (s.unit u).pos = true :=
  fits_mono (inv_fits_n h u) (inv_pos_le_n h u)

theorem inv_fits_outLen (u : UnitId) : fits s.cfg (s.unit u).outLen = true := by
  have ⟨_, henc, hdec⟩ := h
  cases u with
  | enc => exact fits_mono (inv_fits_encOutLen h) henc.outLen_le
  | dec => exact fits_mono (inv_fits_n h .dec) hdec.outLen_le

theorem inv_fits_errOffset (u : UnitId) : fits s.cfg (errOffsetOf s u) = true := by
  have ⟨_, _, hdec⟩ := h
  cases u with
  | enc => exact fits_zero _
  | dec => exact fits_mono (inv_fits_n h .dec) hdec.errOffset_le

/-- The cell an emit step writes lies below the result's length `8 × n`. -/
theorem inv_fits_encWriteOffset (hp : s.enc.pos < s.enc.n) :
    fits s.cfg (encWriteOffset s.enc.pos s.encK) = true := by
  have hlt : encWriteOffset s.enc.pos s.encK < encOutLen s.enc.n := by
    unfold encWriteOffset encOutLen
    omega
  exact fits_mono (inv_fits_encOutLen h) hlt.le

end

/-- Settles O44: `OFFSET_W` holds MAXLEN and is least, and the invariant keeps every length and offset
at most MAXLEN. -/
theorem offsetsFitTheirWidth : Obligations.OffsetsFitTheirWidth := by
  intro s m w hm hw
  have hlt {x : Nat} : fits s.cfg x = true → x < 2 ^ w := lt_two_pow_offsetW_of_fits hm hw
  refine ⟨(offsetW_le_iff hm hw w).mp le_rfl, fun w' => (offsetW_le_iff hm hw w').mpr, fun h => ⟨fun u => ?_, ?_⟩⟩
  · exact ⟨hlt (inv_fits_len h u), hlt (inv_fits_outLen h u), hlt (inv_fits_n h u), hlt (inv_fits_pos h u),
      hlt (inv_fits_errOffset h u)⟩
  · exact fun hp => hlt (inv_fits_encWriteOffset h hp)

end Sys2Proof.Machine

/-! SUPPORT. The proofs about the state of the two units and what every step keeps of it
(spec/10_state.md). -/

namespace Sys2Proof.Machine

/-! ## Every step keeps the invariant (R24, R25, R31, R32, R112, R138) -/

/-! The result of a BUSY unit, byte by byte (R112, R138). -/

theorem writtenBelow_set {m : Memory} {a : Nat} (h : writtenBelow m a) (v : Byte) :
    writtenBelow (Memory.set m a v) (a + 1) := by
  intro c hc
  rw [Memory.get?_set]
  split
  · rfl
  · exact h c (by omega)

/-- Writing the cell behind a sequence in `DST` makes the sequence longer by that byte. -/
theorem readSeq_writeDst_succ (s : State) (u : UnitId) (m : Nat) (v : Byte) :
    readSeq (writeDst s u m v) u .dst (m + 1) = readSeq s u .dst m ++ [v] := by
  rw [readSeq_succ, readCell_writeDst, if_pos ⟨rfl, rfl, rfl⟩]
  congr 1
  refine readSeq_congr fun a ha => ?_
  rw [readCell_writeDst, if_neg (by omega)]

theorem enc8_toList_getElem? (p : Byte) (k : Fin 8) :
    (enc8 p).toList[k.val]? = some (encbit (p.getLsbD (encBitIndex k))) := by
  fin_cases k <;> rfl

theorem enc8_toList_length (p : Byte) : (enc8 p).toList.length = 8 := rfl

/-- Marker `k` of byte `i` stands at offset `8 × i + k` of the encoding (R106). -/
theorem encodeSeq_getElem? {x : List Byte} {i : Nat} {p : Byte} (h : x[i]? = some p) (k : Fin 8) :
    (encodeSeq x)[encWriteOffset i k]? = some (encbit (p.getLsbD (encBitIndex k))) := by
  induction x generalizing i with
  | nil => simp at h
  | cons q rest ih =>
    cases i with
    | zero =>
      obtain rfl : q = p := by simpa using h
      rw [encodeSeq, List.getElem?_append_left (by simp [encWriteOffset, enc8_toList_length])]
      simpa [encWriteOffset] using enc8_toList_getElem? q k
    | succ i =>
      have hoff : encWriteOffset (i + 1) k - 8 = encWriteOffset i k := by
        unfold encWriteOffset; omega
      rw [encodeSeq, List.getElem?_append_right (by simp only [enc8_toList_length, encWriteOffset]; omega),
        enc8_toList_length, hoff]
      exact ih (by simpa using h)

theorem isMark_encbit (b : Bool) : isMark (encbit b) = true := by
  cases b <;> decide

theorem encodeSeq_all_isMark (x : List Byte) : (encodeSeq x).all isMark = true := by
  induction x with
  | nil => rfl
  | cons p rest ih => simp [encodeSeq, enc8, Group.ofFn, Group.toList, isMark_encbit, ih]

theorem scanGroup_invalid {ms : List (Fin 8 × Byte)} {acc : Byte} {j : Fin 8} {v : Byte}
    (h : scanGroup ms acc = .invalid j v) : isMark v = false := by
  induction ms generalizing acc with
  | nil => cases h
  | cons x rest ih =>
    obtain ⟨i, m⟩ := x
    unfold scanGroup decmark at h
    split_ifs at h with h0 h1
    · exact ih h
    · exact ih h
    · cases h
      simp [isMark, h0, h1]

/-- The byte an invalid group is rejected for is no marker (R124). -/
theorem dec8_invalid {g : Group} {j : Fin 8} {v : Byte} (h : dec8 g = .invalid j v) : isMark v = false :=
  scanGroup_invalid h

theorem decodeGroups_append {a b : List Byte} {off : Nat} {x y : List Byte} (hlen : a.length % 8 = 0)
    (ha : decodeGroups a off = .ok x) (hb : decodeGroups b (off + a.length) = .ok y) :
    decodeGroups (a ++ b) off = .ok (x ++ y) := by
  fun_induction decodeGroups a off generalizing x with
  | case1 off g0 g1 g2 g3 g4 g5 g6 g7 rest p hp z hz ih =>
    obtain rfl : p :: z = x := by simpa using ha
    have hrest : rest.length % 8 = 0 := by simp only [List.length_cons] at hlen; omega
    have := ih hrest hz (by simpa [Nat.add_assoc, Nat.add_comm 8] using hb)
    simp [decodeGroups, hp, this]
  | case2 => cases ha
  | case3 => cases ha
  | case4 a off hne =>
    obtain rfl : [] = x := by simpa using ha
    have hlt : a.length < 8 := by
      by_contra hge
      exact hne a[0] a[1] a[2] a[3] a[4] a[5] a[6] a[7] (a.drop 8)
        (by simp only [List.getElem_cons_drop, List.drop_zero])
    obtain rfl : a = [] := List.eq_nil_of_length_eq_zero (by omega)
    simpa using hb

theorem decodeGroups_group {g : Group} {p : Byte} (h : dec8 g = .ok p) (off : Nat) :
    decodeGroups g.toList off = .ok [p] := by
  simp [Group.toList, decodeGroups, h]

/-- One more group makes the decoded sequence longer by its byte (R130). -/
theorem decodeSeq_append_group {e x : List Byte} {g : Group} {p : Byte} (hlen : e.length % 8 = 0)
    (he : decodeSeq e = .ok x) (hg : dec8 g = .ok p) : decodeSeq (e ++ g.toList) = .ok (x ++ [p]) := by
  have hl : (e ++ g.toList).length % 8 = 0 := by simp [Group.toList]; omega
  rw [decodeSeq, if_neg (by simpa using hlen)] at he
  rw [decodeSeq, if_neg (by simpa using hl)]
  exact decodeGroups_append hlen he (decodeGroups_group hg _)

/-! RESET and the buffer writes. -/

theorem inv_of_reset_values {s : State} (he : s.enc = UnitRegs.reset) (hk : s.encK = 0)
    (hd : s.dec = UnitRegs.reset) (hs : s.decSub = .check) (hkind : s.decErrKind = .ok)
    (hval : s.decErrValue = 0x00#8) (hoff : s.decErrOffset = 0) : s.Inv := by
  refine ⟨?_, ?_, ?_⟩
  · simp [BuffersOk, he, hd, UnitRegs.reset]
  · simp [EncOk, he, hk, UnitRegs.reset, encOutLen, fits_zero]
  · simp [DecOk, hd, hs, hkind, hval, hoff, UnitRegs.reset, fits_zero]

theorem inv_resetEvent (s : State) : (resetEvent s).Inv :=
  inv_of_reset_values rfl rfl rfl rfl rfl rfl rfl

theorem BuffersOk.writeSrc {s : State} (h : BuffersOk s) (u : UnitId) {a : Nat}
    (ha : inRange s.cfg a = true) (v : Byte) : BuffersOk (writeSrc s u a v) := by
  obtain ⟨wes, wed, wds, wdd, res, red, rds, rdd⟩ := h
  cases u with
  | enc => exact ⟨Memory.set_wf _ _ _ wes, wed, wds, wdd, cellsInRange_set _ _ _ _ res ha, red, rds, rdd⟩
  | dec => exact ⟨wes, wed, Memory.set_wf _ _ _ wds, wdd, res, red, cellsInRange_set _ _ _ _ rds ha, rdd⟩

theorem BuffersOk.writeDst {s : State} (h : BuffersOk s) (u : UnitId) {a : Nat}
    (ha : inRange s.cfg a = true) (v : Byte) : BuffersOk (writeDst s u a v) := by
  obtain ⟨wes, wed, wds, wdd, res, red, rds, rdd⟩ := h
  cases u with
  | enc => exact ⟨wes, Memory.set_wf _ _ _ wed, wds, wdd, res, cellsInRange_set _ _ _ _ red ha, rds, rdd⟩
  | dec => exact ⟨wes, wed, wds, Memory.set_wf _ _ _ wdd, res, red, rds, cellsInRange_set _ _ _ _ rdd ha⟩

/-! The operations of the host. -/

theorem encOk_start {s : State} (hlen : fits s.cfg s.enc.len = true)
    (hout : fits s.cfg (encOutLen s.enc.len) = true) :
    EncOk { s with enc := startRegs s.enc, encK := 0 } :=
  ⟨hlen, hout, Nat.zero_le _, fun _ => rfl, nofun, fun _ => ⟨rfl, writtenBelow_zero _, rfl⟩, nofun⟩

theorem decOk_start {s : State} (hlen : fits s.cfg s.dec.len = true) :
    DecOk { s with
            dec := startRegs s.dec
            decSub := .check
            decErrKind := .ok
            decErrValue := 0x00#8
            decErrOffset := 0 } := by
  simp [DecOk, hlen]

theorem inv_startUnit {u : UnitId} {s t : State} (h : s.Inv) (ht : startUnit u s = .next t) : t.Inv := by
  have ⟨hbuf, henc, hdec⟩ := h
  obtain ⟨-, rfl⟩ | ⟨-, -, hout, rfl⟩ | ⟨-, -, rfl⟩ := startUnit_next ht
  · exact h
  · exact ⟨hbuf.congr rfl rfl rfl rfl rfl, encOk_start (inv_fits_len h .enc) hout,
      hdec.congr rfl rfl rfl rfl rfl rfl rfl⟩
  · exact ⟨hbuf.congr rfl rfl rfl rfl rfl, henc.congr rfl rfl rfl rfl, decOk_start (inv_fits_len h .dec)⟩

/-- A write of `LEN` keeps the invariant: no clause but the fit of `LEN` mentions it. -/
theorem inv_setLen {s : State} (h : s.Inv) (u : UnitId) {v : Nat} (hv : fits s.cfg v = true) :
    (s.setUnit u { s.unit u with len := v }).Inv := by
  obtain ⟨hbuf, henc, hdec⟩ := h
  cases u with
  | enc =>
    obtain ⟨-, henc⟩ := henc
    exact ⟨hbuf.congr rfl rfl rfl rfl rfl, ⟨hv, henc⟩, hdec.congr rfl rfl rfl rfl rfl rfl rfl⟩
  | dec =>
    obtain ⟨-, hdec⟩ := hdec
    exact ⟨hbuf.congr rfl rfl rfl rfl rfl, henc.congr rfl rfl rfl rfl, ⟨hv, hdec⟩⟩

/-- A write of `SRC` keeps the invariant: only the clauses of phase BUSY mention `SRC`. -/
theorem inv_writeSrc {s : State} (h : s.Inv) {u : UnitId} (hp : (s.unit u).phase ≠ .busy) {a : Nat}
    (ha : inRange s.cfg a = true) (v : Byte) : (writeSrc s u a v).Inv := by
  obtain ⟨hbuf, henc, hdec⟩ := h
  cases u with
  | enc =>
    obtain ⟨hlen, hn, hpos, hk, hidle, -, hdone⟩ := henc
    exact ⟨hbuf.writeSrc .enc ha v,
      ⟨hlen, hn, hpos, hk, hidle, fun hb => absurd hb hp, hdone⟩, hdec.congr rfl rfl rfl rfl rfl rfl rfl⟩
  | dec =>
    obtain ⟨hlen, hn, hpos, hmod, hnotDone, hval, hidle, -, -, hdone⟩ := hdec
    exact ⟨hbuf.writeSrc .dec ha v, henc.congr rfl rfl rfl rfl,
      ⟨hlen, hn, hpos, hmod, hnotDone, hval, hidle, fun hb => absurd hb hp, fun hb => absurd hb hp, hdone⟩⟩

theorem inv_exec {i : Instr} {s t : State} (h : s.Inv) (ht : exec i s = .next t) : t.Inv := by
  cases exec_next ht with
  | nothing ht => rwa [ht]
  | answers a ht => rw [ht]; exact inv_answered h a
  | starts u ht => exact inv_startUnit h ht
  | setsLen u v _ hv ht => rw [ht]; exact inv_setLen h u hv
  | writesSrc u a v hp ha ht => rw [ht]; exact inv_writeSrc h hp ha v

theorem inv_hostTurn {s t : State} (h : s.Inv) (ht : hostTurn s = .next t) : t.Inv := by
  obtain ⟨hbuf, henc, hdec⟩ := h
  obtain ⟨-, rfl⟩ | ⟨r, rs, i, -, -, he⟩ := hostTurn_next ht
  · exact ⟨hbuf, henc, hdec⟩
  · exact inv_exec (s := { s with requests := rs })
      ⟨hbuf.congr rfl rfl rfl rfl rfl, henc.congr rfl rfl rfl rfl, hdec.congr rfl rfl rfl rfl rfl rfl rfl⟩ he

/-! The steps of unit ENC. -/

theorem encWriteOffset_lt {pos n : Nat} (h : pos < n) (k : Fin 8) : encWriteOffset pos k < encOutLen n := by
  unfold encWriteOffset encOutLen
  omega

/-- After an emit step the write offset is the next one, whether the byte was finished or not (R110). -/
theorem encEmit_writeOffset (s : State) :
    encWriteOffset (encEmit s).enc.pos (encEmit s).encK = encWriteOffset s.enc.pos s.encK + 1 := by
  rw [encEmit_eq]
  unfold encWriteOffset
  by_cases hk : s.encK = 7
  · simp [hk]; omega
  · have : (s.encK + 1).val = s.encK.val + 1 := Fin.val_add_one_of_lt (Fin.lt_last_iff_ne_last.mpr hk)
    simp [hk, this]; omega

/-- An emit step puts the next byte of the encoding behind the bytes that stand in `DST` (R112). -/
theorem readSeq_encEmit {s : State} (hpos : s.enc.pos < s.enc.n)
    (hstands : readSeq s .enc .dst (encWriteOffset s.enc.pos s.encK) =
      (encodeSeq (readSeq s .enc .src s.enc.n)).take (encWriteOffset s.enc.pos s.encK)) :
    readSeq (encEmit s) .enc .dst (encWriteOffset s.enc.pos s.encK + 1) =
      (encodeSeq (readSeq s .enc .src s.enc.n)).take (encWriteOffset s.enc.pos s.encK + 1) := by
  rw [List.take_add_one, encodeSeq_getElem? (readSeq_getElem? _ _ _ _ _ hpos), ← hstands,
    Option.toList_some, ← readSeq_writeDst_succ]
  exact readSeq_of_buf (by rw [encEmit_eq]; rfl) (by rw [encEmit_eq]; rfl) _

/-- The emit step keeps the refinement invariant: `DST` holds one byte more of the encoding (R112). -/
theorem inv_encEmit {s : State} (h : s.Inv) (hp : s.enc.phase = .busy) (hpos : s.enc.pos < s.enc.n) :
    (encEmit s).Inv := by
  obtain ⟨hbuf, ⟨hlen, hn, -, -, hidle, hbusy, -⟩, hdec⟩ := h
  obtain ⟨hout, hw, hstands⟩ := hbusy hp
  have hoff := encEmit_writeOffset s
  have hstands' := readSeq_encEmit hpos hstands
  have hbuf' := hbuf.writeDst .enc (inRange_of_fits hn (encWriteOffset_lt hpos s.encK))
    (encbit ((readCell s .enc .src s.enc.pos).getLsbD (encBitIndex s.encK)))
  rw [encEmit_eq] at hoff hstands' ⊢
  refine ⟨hbuf'.congr rfl rfl rfl rfl rfl, ⟨hlen, hn, ?_, ?_, hidle, fun _ => ⟨hout, ?_, ?_⟩, ?_⟩,
    hdec.congr rfl rfl rfl rfl rfl rfl rfl⟩
  · dsimp only; split <;> omega
  · dsimp only
    intro he
    split at he
    next hk => exact if_pos hk
    next => omega
  · rw [hoff]; exact writtenBelow_set hw _
  · rw [hoff]; exact hstands'
  · intro hd; simp [hp] at hd

theorem inv_encFinal {s : State} (h : s.Inv) (hp : s.enc.phase = .busy) (hpos : s.enc.pos = s.enc.n) :
    (encFinal s).Inv := by
  obtain ⟨hbuf, ⟨hlen, hn, hle, hk, -, hbusy, -⟩, hdec⟩ := h
  obtain ⟨-, hw, hstands⟩ := hbusy hp
  have hoff : encWriteOffset s.enc.pos s.encK = encOutLen s.enc.n := by
    rw [hk hpos, hpos]; rfl
  rw [hoff] at hw hstands
  have hmark : (readSeq s .enc .dst (encOutLen s.enc.n)).all isMark = true := by
    rw [hstands]
    have hall := List.all_eq_true.mp (encodeSeq_all_isMark (readSeq s .enc .src s.enc.n))
    exact List.all_eq_true.mpr fun m hm => hall m (List.mem_of_mem_take hm)
  exact ⟨hbuf.congr rfl rfl rfl rfl rfl,
    ⟨hlen, hn, hle, hk, nofun, nofun, fun _ => ⟨rfl, hpos, hw, hmark⟩⟩,
    hdec.congr rfl rfl rfl rfl rfl rfl rfl⟩

theorem inv_encTurn {s t : State} (h : s.Inv) (ht : encTurn s = .next t) : t.Inv := by
  obtain ⟨-, rfl⟩ | ⟨hp, hpos, rfl⟩ | ⟨hp, hpos, rfl⟩ := encTurn_next ht
  · exact h
  · exact inv_encEmit h hp hpos
  · exact inv_encFinal h hp hpos

/-! The steps of unit DEC. -/

theorem inv_decCheck {s : State} (h : s.Inv) (hp : s.dec.phase = .busy) (hs : s.decSub = .check) :
    (decCheck s).Inv := by
  obtain ⟨hbuf, henc, hlen, hn, hpos, hmod, hnotDone, hval, -, hcheck, -, hdone⟩ := h
  have hpos0 := hcheck hp hs
  unfold decCheck
  split
  next hbad =>
    exact ⟨hbuf.congr rfl rfl rfl rfl rfl, henc.congr rfl rfl rfl rfl,
      ⟨hlen, hn, hpos, hmod, nofun, fun _ => ⟨rfl, rfl⟩, nofun, nofun, nofun, nofun,
        fun _ _ => ⟨hbad, rfl⟩, nofun⟩⟩
  next hgood =>
    have hn8 : s.dec.n % 8 = 0 := by omega
    refine ⟨hbuf.congr rfl rfl rfl rfl rfl, henc.congr rfl rfl rfl rfl,
      ⟨hlen, hn, hpos, hmod, hnotDone, hval, fun hi => ?_, nofun, fun _ _ => ⟨hn8, ?_, ?_⟩, hdone⟩⟩
    · simp [hp] at hi
    · rw [hpos0]; exact writtenBelow_zero _
    · rw [hpos0]; rfl

/-- The group step keeps the refinement invariant, or records the error (R136, R138). -/
theorem inv_decGroup {s : State} (h : s.Inv) (hp : s.dec.phase = .busy) (hs : s.decSub = .scan)
    (hlt : s.dec.pos < s.dec.n) : (decGroup s).Inv := by
  obtain ⟨hbuf, henc, hlen, hn, hpos, hmod, hnotDone, hval, -, -, hscan, -⟩ := h
  obtain ⟨hn8, hw, hdec⟩ := hscan hp hs
  cases hg : dec8 (readGroup s s.dec.pos) with
  | ok p =>
    have hbuf' := hbuf.writeDst .dec (a := decWriteOffset s.dec.pos)
      (inRange_of_fits hn (by unfold decWriteOffset; omega)) p
    have hnext : decWriteOffset (s.dec.pos + 8) = decWriteOffset s.dec.pos + 1 := by
      unfold decWriteOffset; omega
    have hdec' := decodeSeq_append_group (by simpa using hmod) hdec hg
    rw [← readSeq_add_eight, ← readSeq_writeDst_succ] at hdec'
    rw [decGroup_ok hg]
    refine ⟨hbuf'.congr rfl rfl rfl rfl rfl, henc.congr rfl rfl rfl rfl,
      ⟨hlen, hn, ?_, ?_, hnotDone, hval, ?_, ?_, fun _ _ => ⟨hn8, ?_, ?_⟩, ?_⟩⟩
    · dsimp only; omega
    · dsimp only; omega
    · simp [hp]
    · simp [hs]
    · rw [hnext]; exact writtenBelow_set hw p
    · rw [hnext]; exact hdec'
    · simp [hp]
  | invalid j v =>
    rw [decGroup_invalid hg]
    have hoff : decErrOffset s.dec.pos j < s.dec.n := by unfold decErrOffset; omega
    exact ⟨hbuf.congr rfl rfl rfl rfl rfl, henc.congr rfl rfl rfl rfl,
      ⟨hlen, hn, hpos, hmod, nofun, fun hne => absurd rfl hne, nofun, nofun, nofun, nofun, nofun,
        fun _ _ => ⟨hn8, rfl, hoff, dec8_invalid hg⟩⟩⟩

theorem inv_decFinal {s : State} (h : s.Inv) (hp : s.dec.phase = .busy) (hs : s.decSub = .scan)
    (hpos : s.dec.pos = s.dec.n) : (decFinal s).Inv := by
  obtain ⟨hbuf, henc, hlen, hn, hle, hmod, hnotDone, hval, -, -, hscan, -⟩ := h
  obtain ⟨hok, -⟩ := hnotDone (by simp [hp])
  obtain ⟨hn8, hw, -⟩ := hscan hp hs
  rw [hpos] at hw
  exact ⟨hbuf.congr rfl rfl rfl rfl rfl, henc.congr rfl rfl rfl rfl,
    ⟨hlen, hn, hle, hmod, nofun, fun _ => hval (by simp [hok]), nofun, nofun, nofun,
      fun _ _ => ⟨hn8, hpos, rfl, hw⟩, nofun, nofun⟩⟩

theorem inv_decTurn {s t : State} (h : s.Inv) (ht : decTurn s = .next t) : t.Inv := by
  obtain ⟨-, rfl⟩ | ⟨hp, hs, rfl⟩ | ⟨hp, hs, hpos, rfl⟩ | ⟨hp, hs, hpos, rfl⟩ := decTurn_next ht
  · exact h
  · exact inv_decCheck h hp hs
  · exact inv_decGroup h hp hs hpos
  · exact inv_decFinal h hp hs hpos

/-- Settles O47: whichever agent takes the turn, its operation keeps the invariant. -/
theorem stepKeepsInvariant : Obligations.StepKeepsInvariant := by
  intro s t h ht
  obtain ⟨-, ht⟩ | ⟨-, ht⟩ | ⟨-, ht⟩ | ⟨-, rfl⟩ := step_next ht
  · exact inv_hostTurn (inv_nextTurn h) ht
  · exact inv_encTurn (inv_nextTurn h) ht
  · exact inv_decTurn (inv_nextTurn h) ht
  · exact inv_resetEvent _

/-- Settles O46: no unit is BUSY or DONE, every length is 0 and no cell is written. -/
theorem resetSatisfiesInvariant : Obligations.ResetSatisfiesInvariant :=
  inv_of_reset_values rfl rfl rfl rfl rfl rfl rfl

/-! ## STATUS and the error record (R29, R34, R36, R42) -/

theorem statusByte_busy_bit (p : Phase) (k : ErrKind) : (statusByte p k).getLsbD 0 = true ↔ p = .busy := by
  cases p <;> cases k <;> decide

theorem statusByte_done_bit (p : Phase) (k : ErrKind) : (statusByte p k).getLsbD 1 = true ↔ p = .done := by
  cases p <;> cases k <;> decide

theorem statusByte_kind_bits (p : Phase) (k : ErrKind) :
    (statusByte p k).extractLsb' 2 2 = (errKindCode k).setWidth 2 := by
  cases p <;> cases k <;> decide

theorem statusByte_high_bits (p : Phase) (k : ErrKind) : (statusByte p k).extractLsb' 4 4 = 0#4 := by
  cases p <;> cases k <;> decide

/-- In IDLE and BUSY a unit of a safe state shows no result and no error (R31, R32, R33). -/
theorem inv_not_done {s : State} (h : s.Inv) {u : UnitId} (hp : (s.unit u).phase ≠ .done) :
    (s.unit u).outLen = 0 ∧ errKindOf s u = .ok ∧ errValueOf s u = 0x00#8 ∧ errOffsetOf s u = 0 := by
  obtain ⟨-, ⟨-, -, -, -, hidle, hbusy, -⟩, -, -, -, -, hnotDone, hval, -⟩ := h
  cases u with
  | enc =>
    refine ⟨?_, rfl, rfl, rfl⟩
    cases hph : s.enc.phase with
    | idle => exact (hidle hph).2
    | busy => exact (hbusy hph).1
    | done => exact absurd hph hp
  | dec =>
    obtain ⟨hkind, hout⟩ := hnotDone hp
    exact ⟨hout, hkind, hval (by simp [hkind])⟩

/-- Settles O25: the fields of `statusByte`, and by the invariant no error kind outside DONE. -/
theorem statusFieldsAndLegalValues : Obligations.StatusFieldsAndLegalValues := by
  refine ⟨fun s u => ⟨statusByte_busy_bit _ _, statusByte_done_bit _ _, statusByte_kind_bits _ _,
    statusByte_high_bits _ _⟩, fun s h => ⟨?_, ?_⟩⟩
  · cases hp : s.enc.phase <;> simp [statusOf, hp, errKindOf]
  · by_cases hp : s.dec.phase = .done
    · cases hk : s.decErrKind <;> simp [statusOf, hp, errKindOf, hk]
    · obtain ⟨-, hk, -⟩ := inv_not_done h (u := .dec) hp
      cases hph : s.dec.phase with
      | idle => simp [statusOf, hph, hk]
      | busy => simp [statusOf, hph, hk]
      | done => exact absurd hph hp

theorem exec_rdr_of_readReg {s : State} {u : UnitId} {r : RegIdx} {v : Nat} (h : readReg s u r = some v) :
    exec (.rdr u r) s = .next { s with answer := some (.value v) } := by
  simp only [exec, execRdr, h, answered]

/-- A cell at or above `OUT_LEN`, or of a unit that is not DONE, is not readable (R156). -/
theorem exec_rdd_refused {s : State} {u : UnitId} {a : Nat}
    (h : (s.unit u).phase = .done → (s.unit u).outLen ≤ a) :
    exec (.rdd u a) s = .refused (.dstNotReadable u) := by
  rw [exec, execRdd, if_neg fun ⟨hp, ha⟩ => absurd (h hp) (Nat.not_le.mpr ha)]

theorem exec_rdd_readable {s : State} {u : UnitId} {a : Nat} (hp : (s.unit u).phase = .done)
    (ha : a < (s.unit u).outLen) :
    exec (.rdd u a) s = .next { s with answer := some (.byte (readCell s u .dst a)) } := by
  rw [exec, execRdd, if_pos ⟨hp, ha⟩, answered]

/-- Settles O21: `readReg` gives 0 for both registers, and ENC's error kind is `ok`. -/
theorem encErrorFieldsHardwired : Obligations.EncErrorFieldsHardwired := fun _ =>
  ⟨exec_rdr_of_readReg rfl, exec_rdr_of_readReg rfl, statusByte_kind_bits _ _⟩

/-- Settles O26: a BUSY unit of a safe state holds neither result nor error, and is not DONE. -/
theorem busyShowsNoProgress : Obligations.BusyShowsNoProgress := by
  intro s u h hp
  obtain ⟨hout, hkind, hval, hoff⟩ := inv_not_done h (u := u) (by simp [hp])
  refine ⟨exec_rdr_of_readReg ?_, exec_rdr_of_readReg ?_, exec_rdr_of_readReg ?_, exec_rdr_of_readReg ?_,
    fun a => exec_rdd_refused fun hd => ?_⟩
  · simp [readReg, statusOf, hp, hkind]
  · simp [readReg, hout]
  · simp [readReg, hval]
  · simp [readReg, hoff]
  · simp [hp] at hd

/-! ## No partial output (R39, R200) -/

/-- A failed DECODE has the result length 0 (R31). -/
theorem DecOk.outLen_of_error {s : State} (h : DecOk s) (hk : s.decErrKind ≠ .ok) : s.dec.outLen = 0 := by
  obtain ⟨-, -, -, -, hnotDone, -, -, -, -, -, hlength, hmarker⟩ := h
  by_cases hp : s.dec.phase = .done
  · cases hkind : s.decErrKind with
    | ok => exact absurd hkind hk
    | lengthNotMultipleOf8 => exact (hlength hp hkind).2
    | invalidMarker =>
      obtain ⟨-, hout, -⟩ := hmarker hp hkind
      exact hout
  · exact (hnotDone hp).2

/-- In DONE every cell of the result has been written by the unit. -/
theorem inv_writtenBelow_outLen {s : State} (h : s.Inv) {u : UnitId} (hp : (s.unit u).phase = .done) :
    writtenBelow (s.unit u).dst (s.unit u).outLen := by
  have ⟨_, ⟨_, _, _, _, _, _, henc⟩, hdec⟩ := h
  cases u with
  | enc =>
    obtain ⟨-, -, hw, -⟩ := henc hp
    exact hw
  | dec =>
    by_cases hk : s.decErrKind = .ok
    · obtain ⟨-, -, -, -, -, -, -, -, -, hok, -⟩ := hdec
      obtain ⟨-, -, -, hw⟩ := hok hp hk
      exact hw
    · rw [State.unit_dec, hdec.outLen_of_error hk]
      exact writtenBelow_zero _

/-- Settles O27: after an error `OUT_LEN` is 0, and in DONE the cells below `OUT_LEN` are written. -/
theorem noPartialOutputReadable : Obligations.NoPartialOutputReadable := by
  constructor
  · intro s ⟨_, _, hdec⟩ hk a
    exact exec_rdd_refused fun _ => (hdec.outLen_of_error hk).trans_le (Nat.zero_le a)
  · intro s u a h hp ha
    obtain ⟨v, hv⟩ := Option.isSome_iff_exists.mp (inv_writtenBelow_outLen h hp a ha)
    have hread : readCell s u .dst a = v := by simp [readCell, UnitRegs.buf, hv]
    exact ⟨v, hv, hread ▸ exec_rdd_readable hp ha⟩

/-! ## The state after reset (R43) -/

/-- Settles O37: by computation, unit by unit. -/
theorem stateAfterReset : Obligations.StateAfterReset := by
  refine ⟨fun u => ?_, rfl, rfl, fun u b a => ?_⟩
  · cases u <;> exact ⟨rfl, statusByte_idle, rfl, rfl, rfl, rfl, rfl, rfl, rfl⟩
  · cases u <;> cases b <;> rfl

/-! ## The units are independent (R17) -/

/-- `s` with the registers of unit ENC taken from `a`. -/
def State.withEncOf (s a : State) : State := { s with enc := a.enc, encK := a.encK }

/-- `s` with the registers of unit DEC taken from `b`. -/
def State.withDecOf (s b : State) : State :=
  { s with
    dec := b.dec
    decSub := b.decSub
    decErrKind := b.decErrKind
    decErrValue := b.decErrValue
    decErrOffset := b.decErrOffset }

/-- A turn of unit ENC changes the registers of ENC alone (R114). -/
theorem encTurn_frame {s t : State} (h : encTurn s = .next t) : t = s.withEncOf t := by
  obtain ⟨-, rfl⟩ | ⟨-, -, rfl⟩ | ⟨-, -, rfl⟩ := encTurn_next h
  · rfl
  · rw [encEmit_eq]; rfl
  · rfl

/-- A turn of unit DEC changes the registers of DEC alone (R141). -/
theorem decTurn_frame {s t : State} (h : decTurn s = .next t) : t = s.withDecOf t := by
  obtain ⟨-, rfl⟩ | ⟨-, -, rfl⟩ | ⟨-, -, -, rfl⟩ | ⟨-, -, -, rfl⟩ := decTurn_next h
  · rfl
  · unfold decCheck; split <;> rfl
  · cases hg : dec8 (readGroup s s.dec.pos) with
    | ok p => rw [decGroup_ok hg]; rfl
    | invalid j v => rw [decGroup_invalid hg]; rfl
  · rfl

/-- A turn of unit ENC does the same whatever DEC holds. -/
theorem encTurn_withDecOf {s t : State} (h : encTurn s = .next t) (b : State) :
    encTurn (s.withDecOf b) = .next (t.withDecOf b) := by
  obtain ⟨hp, rfl⟩ | ⟨hp, hpos, rfl⟩ | ⟨hp, hpos, rfl⟩ := encTurn_next h
  · exact encTurn_not_busy hp
  · have hemit : encEmit (s.withDecOf b) = (encEmit s).withDecOf b := by simp only [encEmit_eq]; rfl
    rw [← hemit]; exact encTurn_emit hp hpos
  · exact encTurn_final hp hpos

/-- A turn of unit DEC does the same whatever ENC holds. -/
theorem decTurn_withEncOf {s t : State} (h : decTurn s = .next t) (a : State) :
    decTurn (s.withEncOf a) = .next (t.withEncOf a) := by
  obtain ⟨hp, rfl⟩ | ⟨hp, hs, rfl⟩ | ⟨hp, hs, hpos, rfl⟩ | ⟨hp, hs, hpos, rfl⟩ := decTurn_next h
  · exact decTurn_not_busy hp
  · have hcheck : decCheck (s.withEncOf a) = (decCheck s).withEncOf a := by
      simp only [decCheck]; rw [apply_ite (State.withEncOf · a)]; rfl
    rw [← hcheck]; exact decTurn_check hp hs
  · have hgroup : decGroup (s.withEncOf a) = (decGroup s).withEncOf a := by
      cases hg : dec8 (readGroup s s.dec.pos) with
      | ok p => rw [decGroup_ok hg, decGroup_ok (s := s.withEncOf a) hg]; rfl
      | invalid j v => rw [decGroup_invalid hg, decGroup_invalid (s := s.withEncOf a) hg]; rfl
    rw [← hgroup]; exact decTurn_group hp hs hpos
  · exact decTurn_final hp hs hpos

/-- Settles O40: each turn changes its own unit's registers, by what it reads of its own unit. -/
theorem unitTurnsCommute : Obligations.UnitTurnsCommute := by
  intro s a b ha hb
  have hframe : b.withEncOf a = a.withDecOf b := by
    rw [decTurn_frame hb, encTurn_frame ha]; rfl
  refine ⟨a.withDecOf b, ?_, ?_⟩
  · rw [← hframe]
    exact (congrArg decTurn (encTurn_frame ha)).trans (decTurn_withEncOf hb a)
  · exact (congrArg encTurn (decTurn_frame hb)).trans (encTurn_withDecOf ha b)

/-! ## How a unit's registers move (R24, R25, R65, R228) -/

@[simp] theorem nextTurn_unit (s : State) (u : UnitId) : (nextTurn s).2.unit u = s.unit u := by
  obtain ⟨ts, d, e⟩ := nextTurn_state s
  rw [e]
  cases u <;> rfl

@[simp] theorem nextTurn_epoch (s : State) : (nextTurn s).2.epoch = s.epoch := by
  obtain ⟨ts, d, e⟩ := nextTurn_state s
  rw [e]

theorem encTurn_dec {s t : State} (h : encTurn s = .next t) : t.dec = s.dec := by
  rw [encTurn_frame h]; rfl

theorem decTurn_enc {s t : State} (h : decTurn s = .next t) : t.enc = s.enc := by
  rw [decTurn_frame h]; rfl

theorem encTurn_epoch {s t : State} (h : encTurn s = .next t) : t.epoch = s.epoch := by
  rw [encTurn_frame h]; rfl

theorem decTurn_epoch {s t : State} (h : decTurn s = .next t) : t.epoch = s.epoch := by
  rw [decTurn_frame h]; rfl

theorem startUnit_epoch {u : UnitId} {s t : State} (h : startUnit u s = .next t) : t.epoch = s.epoch := by
  obtain ⟨-, rfl⟩ | ⟨-, -, -, rfl⟩ | ⟨-, -, rfl⟩ := startUnit_next h <;> rfl

theorem exec_epoch {i : Instr} {s t : State} (h : exec i s = .next t) : t.epoch = s.epoch := by
  cases exec_next h with
  | nothing h => rw [h]
  | answers a h => rw [h, answered_epoch]
  | starts u h => exact startUnit_epoch h
  | setsLen u v _ _ h => rw [h, State.setUnit_epoch]
  | writesSrc u a v _ _ h => rw [h, writeSrc, State.setUnit_epoch]

theorem hostTurn_epoch {s t : State} (h : hostTurn s = .next t) : t.epoch = s.epoch := by
  obtain ⟨-, rfl⟩ | ⟨r, rs, i, -, -, he⟩ := hostTurn_next h
  · rfl
  · exact (exec_epoch he).trans rfl

/-- `t` may be the state after a host operation as far as unit `w` is concerned: its registers stand, or
it was not BUSY and now has the same phase or is BUSY (R25, R228). -/
def HostMayMove (w : UnitId) (s t : State) : Prop :=
  t.unit w = s.unit w ∨
  ((s.unit w).phase ≠ .busy ∧ ((t.unit w).phase = (s.unit w).phase ∨ (t.unit w).phase = .busy))

theorem startUnit_mayMove {u : UnitId} {s t : State} (h : startUnit u s = .next t) (w : UnitId) :
    HostMayMove w s t := by
  obtain ⟨-, rfl⟩ | ⟨-, hp, -, rfl⟩ | ⟨-, hp, rfl⟩ := startUnit_next h
  · exact .inl rfl
  · cases w with
    | enc => exact .inr ⟨hp, .inr rfl⟩
    | dec => exact .inl rfl
  · cases w with
    | enc => exact .inl rfl
    | dec => exact .inr ⟨hp, .inr rfl⟩

/-- A host write to a unit that is not BUSY, without a change of its phase. -/
theorem setUnit_mayMove {s : State} {u : UnitId} {r : UnitRegs} (hp : (s.unit u).phase ≠ .busy)
    (hr : r.phase = (s.unit u).phase) (w : UnitId) : HostMayMove w s (s.setUnit u r) := by
  unfold HostMayMove
  rw [State.unit_setUnit]
  split
  next hw => subst hw; exact .inr ⟨hp, .inl hr⟩
  next => exact .inl rfl

theorem exec_mayMove {i : Instr} {s t : State} (h : exec i s = .next t) (w : UnitId) : HostMayMove w s t := by
  cases exec_next h with
  | nothing h => rw [h]; exact .inl rfl
  | answers a h => rw [h]; exact .inl (by cases w <;> rfl)
  | starts u h => exact startUnit_mayMove h w
  | setsLen u v hp _ h => rw [h]; exact setUnit_mayMove hp (by rfl) w
  | writesSrc u a v hp _ h => rw [h]; exact setUnit_mayMove hp (by rfl) w

theorem hostTurn_mayMove {s t : State} (h : hostTurn s = .next t) (w : UnitId) : HostMayMove w s t := by
  obtain ⟨-, rfl⟩ | ⟨r, rs, i, -, -, he⟩ := hostTurn_next h
  · exact .inl rfl
  · have hw : ({ s with requests := rs } : State).unit w = s.unit w := by cases w <;> rfl
    simpa only [HostMayMove, hw] using exec_mayMove he w

theorem encTurn_phase {s t : State} (h : encTurn s = .next t) :
    t.enc.phase = s.enc.phase ∨ (s.enc.phase = .busy ∧ t.enc.phase = .done) := by
  obtain ⟨-, rfl⟩ | ⟨-, -, rfl⟩ | ⟨hp, -, rfl⟩ := encTurn_next h
  · exact .inl rfl
  · exact .inl (by rw [encEmit_eq])
  · exact .inr ⟨hp, rfl⟩

theorem raiseError_phase (e : CodecError) (s : State) : (raiseError e s).dec.phase = .done := by
  rw [raiseError_frame]

theorem decTurn_phase {s t : State} (h : decTurn s = .next t) :
    t.dec.phase = s.dec.phase ∨ (s.dec.phase = .busy ∧ t.dec.phase = .done) := by
  obtain ⟨-, rfl⟩ | ⟨hp, -, rfl⟩ | ⟨hp, -, -, rfl⟩ | ⟨hp, -, -, rfl⟩ := decTurn_next h
  · exact .inl rfl
  · unfold decCheck
    split
    · exact .inr ⟨hp, raiseError_phase _ _⟩
    · exact .inl rfl
  · cases hg : dec8 (readGroup s s.dec.pos) with
    | ok p => rw [decGroup_ok hg]; exact .inl rfl
    | invalid j v => rw [decGroup_invalid hg]; exact .inr ⟨hp, raiseError_phase _ _⟩
  · exact .inr ⟨hp, rfl⟩

/-- Settles O41: the phase of a unit under the turn of each of the four agents. -/
theorem phaseChangesOnlyAsRuled : Obligations.PhaseChangesOnlyAsRuled := by
  intro s t u h
  rw [← nextTurn_unit s u]
  obtain ⟨hturn, ht⟩ | ⟨hturn, ht⟩ | ⟨hturn, ht⟩ | ⟨hturn, rfl⟩ := step_next h
  · obtain hsame | ⟨hp, hsame | hbusy⟩ := hostTurn_mayMove ht u
    · exact .inl (by rw [hsame])
    · exact .inl hsame
    · exact .inr (.inl ⟨hturn, hp, hbusy⟩)
  · cases u with
    | enc => exact (encTurn_phase ht).imp_right fun hend => .inr (.inl ⟨hturn, hend⟩)
    | dec => exact .inl (congrArg UnitRegs.phase (encTurn_dec ht))
  · cases u with
    | enc => exact .inl (congrArg UnitRegs.phase (decTurn_enc ht))
    | dec => exact (decTurn_phase ht).imp_right fun hend => .inr (.inl ⟨hturn, hend⟩)
  · exact .inr (.inr (.inr ⟨hturn, by cases u <;> rfl⟩))

/-- How many source bytes a unit consumes at a time: ENC one plain byte, DEC one group (R24). -/
def posStride (u : UnitId) : Nat :=
  match u with
  | .enc => 1
  | .dec => 8

/-- `r'` may follow `r` while the operation of unit `u` runs: `pos` stays or grows by the unit's stride,
and the latched length, `LEN` and `SRC` stand (R24, R65, R228). -/
def MovesForward (u : UnitId) (r r' : UnitRegs) : Prop :=
  (r'.pos = r.pos ∨ r'.pos = r.pos + posStride u) ∧ r'.n = r.n ∧ r'.len = r.len ∧ r'.src = r.src

theorem MovesForward.of_eq {u : UnitId} {r r' : UnitRegs} (h : r' = r) : MovesForward u r r' := by
  rw [h]
  exact ⟨.inl rfl, rfl, rfl, rfl⟩

theorem encTurn_movesForward {s t : State} (h : encTurn s = .next t) : MovesForward .enc s.enc t.enc := by
  obtain ⟨-, rfl⟩ | ⟨-, -, rfl⟩ | ⟨-, -, rfl⟩ := encTurn_next h
  · exact .of_eq rfl
  · rw [encEmit_eq]
    refine ⟨?_, rfl, rfl, rfl⟩
    dsimp only
    split
    · exact .inr rfl
    · exact .inl rfl
  · exact ⟨.inl rfl, rfl, rfl, rfl⟩

theorem raiseError_movesForward (e : CodecError) (s : State) :
    MovesForward .dec s.dec (raiseError e s).dec := by
  rw [raiseError_frame]
  exact ⟨.inl rfl, rfl, rfl, rfl⟩

theorem decTurn_movesForward {s t : State} (h : decTurn s = .next t) : MovesForward .dec s.dec t.dec := by
  obtain ⟨-, rfl⟩ | ⟨-, -, rfl⟩ | ⟨-, -, -, rfl⟩ | ⟨-, -, -, rfl⟩ := decTurn_next h
  · exact .of_eq rfl
  · unfold decCheck
    split
    · exact raiseError_movesForward ..
    · exact .of_eq rfl
  · cases hg : dec8 (readGroup s s.dec.pos) with
    | ok p => rw [decGroup_ok hg]; exact ⟨.inr rfl, rfl, rfl, rfl⟩
    | invalid j v => rw [decGroup_invalid hg]; exact raiseError_movesForward ..
  · exact ⟨.inl rfl, rfl, rfl, rfl⟩

/-- No agent but the platform redraws the unwritten cells. -/
theorem step_epoch {s t : State} (h : step s = .next t) (hne : (nextTurn s).1 ≠ .platform) :
    t.epoch = s.epoch := by
  rw [← nextTurn_epoch s]
  obtain ⟨-, ht⟩ | ⟨-, ht⟩ | ⟨-, ht⟩ | ⟨hturn, -⟩ := step_next h
  · exact hostTurn_epoch ht
  · exact encTurn_epoch ht
  · exact decTurn_epoch ht
  · exact absurd hturn hne

theorem step_movesForward {s t : State} {u : UnitId} (hp : (s.unit u).phase = .busy) (h : step s = .next t)
    (hne : (nextTurn s).1 ≠ .platform) :
    MovesForward u (s.unit u) (t.unit u) := by
  rw [← nextTurn_unit s u] at hp ⊢
  obtain ⟨-, ht⟩ | ⟨-, ht⟩ | ⟨-, ht⟩ | ⟨hturn, -⟩ := step_next h
  · obtain hsame | ⟨hidle, -⟩ := hostTurn_mayMove ht u
    · exact .of_eq hsame
    · exact absurd hp hidle
  · cases u with
    | enc => exact encTurn_movesForward ht
    | dec => exact .of_eq (encTurn_dec ht)
  · cases u with
    | enc => exact .of_eq (decTurn_enc ht)
    | dec => exact decTurn_movesForward ht
  · exact absurd hturn hne

/-- Settles O43: the host cannot move a BUSY unit, and the unit's own turn moves it forward. -/
theorem busyUnitOnlyMovesForward : Obligations.BusyUnitOnlyMovesForward := by
  intro s t u hp h hne
  obtain ⟨hpos, hn, hlen, hsrc⟩ := step_movesForward hp h hne
  exact ⟨hpos, hn, hlen, readCell_congr hsrc (step_epoch h hne)⟩

end Sys2Proof.Machine

/-! SUPPORT. The proofs about the order of the host's operations and the schedule
(spec/20_memory.md). -/

namespace Sys2Proof.Machine

/-! ## What a step runs (R62, R85) -/

/-- The oldest turn of the schedule is the next one. -/
theorem step_of_turns {s : State} {t : Turn} {ts : List Turn} (h : s.turns = t :: ts) :
    step s = takeTurn t { s with turns := ts } := by
  simp only [step, nextTurn, h]

/-- With no schedule left the free value names the agent. -/
theorem step_of_no_turns {s : State} (h : s.turns = []) :
    step s = takeTurn (Config.turnAt s.draws) { s with draws := s.draws + 1 } := by
  simp only [step, nextTurn, h]

theorem hostTurn_of_decode_ok {s : State} {r : Request} {rs : List Request} {i : Instr}
    (hr : s.requests = r :: rs) (hd : decode r = .ok i) :
    hostTurn s = exec i { s with requests := rs } := by
  simp only [hostTurn, hr, hd]

theorem hostTurn_of_decode_error {s : State} {r : Request} {rs : List Request} {e : DecodeError}
    (hr : s.requests = r :: rs) (hd : decode r = .error e) :
    hostTurn s = .refused (.malformedRequest e) := by
  simp only [hostTurn, hr, hd]

theorem hostTurn_of_no_requests {s : State} (h : s.requests = []) : hostTurn s = .next s := by
  simp only [hostTurn, h]

/-- A step whose turn is the host's runs the operation its oldest request decodes to. -/
theorem step_of_host_request {s : State} {ts : List Turn} {r : Request} {rs : List Request} {i : Instr}
    (ht : s.turns = .host :: ts) (hr : s.requests = r :: rs) (hd : decode r = .ok i) :
    step s = exec i { s with turns := ts, requests := rs } :=
  (step_of_turns ht).trans (hostTurn_of_decode_ok hr hd)

/-- Taking the turn and the request that `issueNext` put in front gives the state back. -/
theorem step_issueNext (s : State) {r : Request} {i : Instr} (hd : decode r = .ok i) :
    step (issueNext s r) = exec i s :=
  step_of_host_request (s := issueNext s r) rfl rfl hd

theorem decode_tableRequest {nbits w : Nat} {i : Instr} (h : decodeTableWord nbits w = some i) :
    decode (tableRequest nbits w) = .ok i := by
  unfold decodeTableWord at h
  split at h
  next hd => cases h; exact hd
  next => cases h

/-- Settles O49: the schedule names the agent, and the host's turn runs what its oldest request decodes
to; a table word is placed as that request. -/
theorem stepRunsTheDecodedRequest : Obligations.StepRunsTheDecodedRequest :=
  ⟨fun _ _ _ ht => step_of_turns ht,
    fun _ ht => step_of_no_turns ht,
    fun _ _ _ _ hr hd => hostTurn_of_decode_ok hr hd,
    fun _ _ _ _ hr hd => hostTurn_of_decode_error hr hd,
    fun _ hr => hostTurn_of_no_requests hr,
    fun _ _ _ _ _ ht hr hd => step_of_host_request ht hr hd,
    fun s _ _ _ hw => step_issueNext s (decode_tableRequest hw)⟩

end Sys2Proof.Machine

/-! SUPPORT. The proofs about the encoded form of the host's operations and the pseudo-operations
(spec/30_encoding.md). -/

namespace Sys2Proof.Machine

/-! ## Each field of a request reads back (R70, R73, R76) -/

@[simp] theorem decodeRegno_regno (k : Kind) (u : UnitId) (r : RegIdx) :
    decodeRegno k (BitVec.ofNat 8 (regno u r)) = .ok (u, r) := by
  cases u <;> cases r <;> rfl

@[simp] theorem decodeUnit_unitBit (k : Kind) (u : UnitId) :
    decodeUnit k (BitVec.ofNat 8 (unitBit u)) = .ok u := by
  cases u <;> rfl

@[simp] theorem decodeBit_bit (b : Bool) : decodeBit (if b then 1#8 else 0#8) = .ok (.encbit b) := by
  cases b <;> rfl

/-- A well-formed `MARK.INVALID` carries neither marker, so the other two rows do not match (R80). -/
theorem decodeMark_of_wellFormed {v : Byte} (h : WellFormed (.markInvalid v) = true) :
    decodeMark v = .markInvalid v := by
  obtain ⟨hzero, hone⟩ : v ≠ zeroMark ∧ v ≠ oneMark := by simpa [WellFormed] using h
  rw [decodeMark, if_neg hzero, if_neg hone]

/-- The decoder inverts the encoder, row by row of the table (R79). -/
theorem decode_encode {i : Instr} (h : WellFormed i = true) : decode (encode i) = .ok i := by
  cases i with
  | encbit b => exact decodeBit_bit b
  | markInvalid v => exact congrArg Except.ok (decodeMark_of_wellFormed h)
  | wrr u r v => simp [encode, decode, decodeWrr, Except.map]
  | rdr u r => simp [encode, decode, decodeRdr, Except.map]
  | wrs u a v => simp [encode, decode, decodeWrs, Except.map, v.isLt]
  | rds u a => simp [encode, decode, decodeRds, Except.map]
  | rdd u a => simp [encode, decode, decodeRdd, Except.map]
  | enc8 | encode | decmark | markZero | markOne | dec8 | decode => rfl

/-! ## What the decoder gives (R79, R80) -/

/-- `MARK.INVALID` comes from no word that another marker row matches (R80, R122). -/
theorem wellFormed_decodeMark (w : Byte) : WellFormed (decodeMark w) = true := by
  unfold decodeMark
  split_ifs with hzero hone
  · rfl
  · rfl
  · simp [WellFormed, hzero, hone]

theorem wellFormed_decodeTableByte (w : Byte) : WellFormed (decodeTableByte w) = true := by
  unfold decodeTableByte
  split_ifs
  · rfl
  · rfl
  · exact wellFormed_decodeMark w

theorem decodeBit_ok {w : Byte} {i : Instr} (h : decodeBit w = .ok i) : ∃ b, i = .encbit b := by
  unfold decodeBit at h
  split_ifs at h <;> cases h
  · exact ⟨false, rfl⟩
  · exact ⟨true, rfl⟩

/-- The four `CMD` words that decode, and what each stands for (R79, R84; log 11). -/
theorem decodeCmd_ok_iff {w : Byte} {i : Instr} :
    decodeCmd w = .ok i ↔
      (w = 0x01#8 ∧ i = .encode) ∨ (w = 0x11#8 ∧ i = .decode) ∨
      (w = 0x00#8 ∧ i = .wrr .enc .ctrl 0) ∨ (w = 0x10#8 ∧ i = .wrr .dec .ctrl 0) := by
  constructor
  · intro h
    unfold decodeCmd at h
    split_ifs at h with h1 h2 h3 h4 <;> cases h
    · exact .inl ⟨h1, rfl⟩
    · exact .inr (.inl ⟨h2, rfl⟩)
    · exact .inr (.inr (.inl ⟨h3, rfl⟩))
    · exact .inr (.inr (.inr ⟨h4, rfl⟩))
  · rintro (⟨rfl, rfl⟩ | ⟨rfl, rfl⟩ | ⟨rfl, rfl⟩ | ⟨rfl, rfl⟩) <;> rfl

theorem decodeByteForm_ok {k : Kind} {word : List Byte} {ops : List Nat}
    {f : Byte → Except DecodeError Instr} {i : Instr} (h : decodeByteForm k word ops f = .ok i) :
    ∃ w, word = [w] ∧ ops = [] ∧ f w = .ok i := by
  unfold decodeByteForm at h
  split at h
  · exact ⟨_, rfl, rfl, h⟩
  · cases h

theorem decodeGroupForm_ok {k : Kind} {word : List Byte} {ops : List Nat} {i : Instr}
    (h : decodeGroupForm k word ops = .ok i) : ∃ g, i = .dec8 g := by
  unfold decodeGroupForm at h
  split at h <;> cases h
  exact ⟨_, rfl⟩

theorem exists_of_map_eq_ok {α : Type} {x : Except DecodeError α} {f : α → Instr} {i : Instr}
    (h : x.map f = .ok i) : ∃ a, x = .ok a ∧ f a = i := by
  cases x with
  | ok a => cases h; exact ⟨a, rfl, rfl⟩
  | error e => cases h

theorem decodeWrr_ok {word : List Byte} {ops : List Nat} {i : Instr} (h : decodeWrr word ops = .ok i) :
    ∃ u r v, i = .wrr u r v := by
  unfold decodeWrr at h
  split at h
  · obtain ⟨x, -, rfl⟩ := exists_of_map_eq_ok h; exact ⟨_, _, _, rfl⟩
  · cases h

theorem decodeRdr_ok {word : List Byte} {ops : List Nat} {i : Instr} (h : decodeRdr word ops = .ok i) :
    ∃ u r, i = .rdr u r := by
  unfold decodeRdr at h
  split at h
  · obtain ⟨x, -, rfl⟩ := exists_of_map_eq_ok h; exact ⟨_, _, rfl⟩
  · cases h

theorem decodeWrs_ok {word : List Byte} {ops : List Nat} {i : Instr} (h : decodeWrs word ops = .ok i) :
    ∃ u a v, i = .wrs u a v := by
  unfold decodeWrs at h
  split at h
  · split at h
    · obtain ⟨u, -, rfl⟩ := exists_of_map_eq_ok h; exact ⟨_, _, _, rfl⟩
    · cases h
  · cases h

theorem decodeRds_ok {word : List Byte} {ops : List Nat} {i : Instr} (h : decodeRds word ops = .ok i) :
    ∃ u a, i = .rds u a := by
  unfold decodeRds at h
  split at h
  · obtain ⟨u, -, rfl⟩ := exists_of_map_eq_ok h; exact ⟨_, _, rfl⟩
  · cases h

theorem decodeRdd_ok {word : List Byte} {ops : List Nat} {i : Instr} (h : decodeRdd word ops = .ok i) :
    ∃ u a, i = .rdd u a := by
  unfold decodeRdd at h
  split at h
  · obtain ⟨u, -, rfl⟩ := exists_of_map_eq_ok h; exact ⟨_, _, rfl⟩
  · cases h

theorem wellFormed_of_decodeTable {word : List Byte} {ops : List Nat} {i : Instr}
    (h : decodeTable word ops = .ok i) : WellFormed i = true := by
  unfold decodeTable at h
  split at h
  · obtain ⟨w, -, -, hw⟩ := decodeByteForm_ok h
    cases hw
    exact wellFormed_decodeTableByte w
  · obtain ⟨g, rfl⟩ := decodeGroupForm_ok h
    rfl

/-- Whatever decodes is an instruction of the table: only the marker rows could give another. -/
theorem wellFormed_of_decode {r : Request} {i : Instr} (h : decode r = .ok i) : WellFormed i = true := by
  obtain ⟨kind, word, ops⟩ := r
  cases kind with
  | encbit =>
    obtain ⟨w, -, -, hw⟩ := decodeByteForm_ok h
    obtain ⟨b, rfl⟩ := decodeBit_ok hw
    rfl
  | enc8 => obtain ⟨w, -, -, hw⟩ := decodeByteForm_ok h; cases hw; rfl
  | cmd =>
    obtain ⟨w, -, -, hw⟩ := decodeByteForm_ok h
    obtain ⟨-, rfl⟩ | ⟨-, rfl⟩ | ⟨-, rfl⟩ | ⟨-, rfl⟩ := decodeCmd_ok_iff.mp hw <;> rfl
  | decmark => obtain ⟨w, -, -, hw⟩ := decodeByteForm_ok h; cases hw; rfl
  | mark => obtain ⟨w, -, -, hw⟩ := decodeByteForm_ok h; cases hw; exact wellFormed_decodeMark w
  | dec8 => obtain ⟨g, rfl⟩ := decodeGroupForm_ok h; rfl
  | wrr => obtain ⟨u, r, v, rfl⟩ := decodeWrr_ok h; rfl
  | rdr => obtain ⟨u, r, rfl⟩ := decodeRdr_ok h; rfl
  | wrs => obtain ⟨u, a, v, rfl⟩ := decodeWrs_ok h; rfl
  | rds => obtain ⟨u, a, rfl⟩ := decodeRds_ok h; rfl
  | rdd => obtain ⟨u, a, rfl⟩ := decodeRdd_ok h; rfl
  | tableWord => exact wellFormed_of_decodeTable h

/-- Settles O51: the decoder inverts the encoder row by row, and only its marker rows could give an
ill-formed instruction, which their order excludes. -/
theorem decodeInvertsEncode : Obligations.DecodeInvertsEncode :=
  ⟨fun _ hi => decode_encode hi, fun _ _ hd => wellFormed_of_decode hd⟩

/-- Settles O50: each word is the encoding of its instruction. -/
theorem encodingsReadRight : Obligations.EncodingsReadRight :=
  ⟨decode_encode (i := .encode) rfl, decode_encode (i := .decode) rfl, decode_encode (i := .markOne) rfl,
    decode_encode (i := .wrr .dec .len 16) rfl, decode_encode (i := .rdr .enc .status) rfl,
    decode_encode (i := .wrs .dec 11 0xFF#8) rfl, decode_encode (i := .rdd .enc 8) rfl⟩

/-! ## Commands without effect (R84) -/

/-- START of a BUSY unit is ignored (R153). -/
theorem startUnit_busy {u : UnitId} {s : State} (h : (s.unit u).phase = .busy) : startUnit u s = .next s :=
  if_pos h

/-- A write of `CTRL` with value bit 0 clear does nothing (R28). -/
theorem exec_wrr_ctrl_zero (u : UnitId) (s : State) : exec (.wrr u .ctrl 0) s = .next s :=
  rfl

/-- Settles O52: of the four words that decode, the two with value bit 0 clear write 0 to a `CTRL`, and
the other two are the STARTs, which a BUSY unit ignores. -/
theorem commandWordsWithoutEffect : Obligations.CommandWordsWithoutEffect := by
  refine ⟨fun s w i hbit h => ?_, fun s i henc hdec w h => ?_, fun w => ⟨fun ⟨i, h⟩ => ?_, fun h => ?_⟩⟩
  · obtain ⟨rfl, -⟩ | ⟨rfl, -⟩ | ⟨-, rfl⟩ | ⟨-, rfl⟩ := decodeCmd_ok_iff.mp h
    · exact absurd hbit (by decide)
    · exact absurd hbit (by decide)
    · exact exec_wrr_ctrl_zero _ _
    · exact exec_wrr_ctrl_zero _ _
  · obtain ⟨-, rfl⟩ | ⟨-, rfl⟩ | ⟨-, rfl⟩ | ⟨-, rfl⟩ := decodeCmd_ok_iff.mp h
    · exact startUnit_busy (u := .enc) henc
    · exact startUnit_busy (u := .dec) hdec
    · exact exec_wrr_ctrl_zero _ _
    · exact exec_wrr_ctrl_zero _ _
  · obtain ⟨hw, -⟩ | ⟨hw, -⟩ | ⟨hw, -⟩ | ⟨hw, -⟩ := decodeCmd_ok_iff.mp h <;> simp [hw]
  · obtain rfl | rfl | rfl | rfl := h <;> exact ⟨_, rfl⟩

/-! ## LOAD (R85, R86) -/

@[simp] theorem State.setUnit_setUnit (s : State) (u : UnitId) (r r' : UnitRegs) :
    (s.setUnit u r).setUnit u r' = s.setUnit u r' := by
  cases u <;> rfl

/-- A cell after a unit's registers are replaced: the other unit's cells stand. -/
theorem readCell_setUnit (s : State) (u w : UnitId) (r : UnitRegs) (b : Buf) (c : Nat) :
    readCell (s.setUnit u r) w b c =
      if w = u then (Memory.get? (r.buf b) c).getD (Config.unwrittenByte s.epoch w b c)
      else readCell s w b c := by
  simp only [readCell, State.unit_setUnit, State.setUnit_epoch]
  split <;> rfl

theorem exec_wrs {s : State} {u : UnitId} {a : Nat} (hp : (s.unit u).phase ≠ .busy)
    (ha : inRange s.cfg a = true) (v : Byte) : exec (.wrs u a v) s = .next (writeSrc s u a v) := by
  rw [exec, execWrs, if_neg hp, if_pos ha]

theorem exec_wrr_len {s : State} {u : UnitId} {v : Nat} (hp : (s.unit u).phase ≠ .busy)
    (hv : fits s.cfg v = true) :
    exec (.wrr u .len v) s = .next (s.setUnit u { s.unit u with len := v }) := by
  rw [exec, execWrr, writeLen, if_neg hp, if_pos hv]

theorem runOps_cons {i : Instr} {rest : List Instr} {s t : State} (h : exec i s = .next t) :
    runOps (i :: rest) s = runOps rest t := by
  rw [runOps, h]

theorem runOps_append {is js : List Instr} {s t : State} (h : runOps is s = .next t) :
    runOps (is ++ js) s = runOps js t := by
  induction is generalizing s with
  | nil => cases h; rfl
  | cons i rest ih =>
    rw [runOps] at h
    split at h
    next r hr => rw [List.cons_append, runOps_cons hr, ih h]
    next => cases h
    next => cases h

/-- The bytes `bs` written one after another from offset `a` on. -/
def Memory.setSeq (m : Memory) (a : Nat) (bs : List Byte) : Memory :=
  match bs with
  | [] => m
  | b :: rest => Memory.setSeq (Memory.set m a b) (a + 1) rest

/-- Cell `c` holds the byte of the sequence that falls on it, and stands where none does. -/
theorem Memory.get?_setSeq (m : Memory) (a : Nat) (bs : List Byte) (c : Nat) :
    Memory.get? (Memory.setSeq m a bs) c =
      (if a ≤ c then bs[c - a]? else none).or (Memory.get? m c) := by
  induction bs generalizing m a with
  | nil => simp [Memory.setSeq]
  | cons b rest ih =>
    rw [Memory.setSeq, ih, Memory.get?_set]
    obtain hlt | rfl | hgt := Nat.lt_trichotomy c a
    · rw [if_neg (by omega), if_neg (by omega), if_neg (by omega)]
    · simp
    · have hsub : c - a = c - (a + 1) + 1 := by omega
      rw [if_pos (Nat.succ_le_of_lt hgt), if_neg hgt.ne', if_pos hgt.le, hsub, List.getElem?_cons_succ]

/-- The stores of a sequence that fits complete on a unit that is not BUSY. -/
theorem runOps_storeBytes {s : State} {u : UnitId} {a : Nat} {bs : List Byte}
    (hp : (s.unit u).phase ≠ .busy) (hf : fits s.cfg (a + bs.length) = true) :
    runOps (storeBytes u a bs) s =
      .next (s.setUnit u { s.unit u with src := Memory.setSeq (s.unit u).src a bs }) := by
  induction bs generalizing s a with
  | nil => rw [storeBytes, runOps, Memory.setSeq, State.setUnit_unit]
  | cons b rest ih =>
    rw [List.length_cons] at hf
    rw [storeBytes, runOps_cons (exec_wrs hp (inRange_of_fits hf (by omega)) b),
      ih (by simpa [writeSrc] using hp) (by rw [writeSrc_cfg]; convert hf using 2; omega)]
    simp [writeSrc, Memory.setSeq]

/-- The state `s` with the sequence `bs` loaded in unit `u`. -/
def State.withSource (s : State) (u : UnitId) (bs : List Byte) : State :=
  s.setUnit u { s.unit u with src := Memory.setSeq (s.unit u).src 0 bs, len := bs.length }

theorem runOps_pseudoLoad {s : State} {u : UnitId} {bs : List Byte} (hp : (s.unit u).phase ≠ .busy)
    (hf : fits s.cfg bs.length = true) : runOps (pseudoLoad u bs) s = .next (s.withSource u bs) := by
  rw [pseudoLoad, runOps_append (runOps_storeBytes hp (by simpa using hf)), pseudoSetLen,
    runOps_cons (exec_wrr_len (by simpa using hp) (by simpa using hf))]
  simp [runOps, State.withSource]

/-- The first cells of `SRC` hold the sequence, and every other cell stands. -/
theorem readCell_withSource (s : State) (u : UnitId) (bs : List Byte) (w : UnitId) (b : Buf) (c : Nat) :
    readCell (s.withSource u bs) w b c =
      if w = u ∧ b = .src then bs[c]?.getD (readCell s w b c) else readCell s w b c := by
  rw [State.withSource, readCell_setUnit]
  by_cases hw : w = u
  · subst hw
    cases b with
    | src => simp [UnitRegs.buf, Memory.get?_setSeq, readCell]
    | dst => simp [UnitRegs.buf, readCell]
  · simp [hw]

theorem readSeq_withSource (s : State) (u : UnitId) (bs : List Byte) :
    readSeq (s.withSource u bs) u .src bs.length = bs := by
  refine List.ext_getElem (readSeq_length ..) fun i _ hi => ?_
  simp [readSeq, readCell_withSource, hi]

/-- Settles O28: the stores one by one, then the write of `LEN`. -/
theorem loadPlacesTheSequence : Obligations.LoadPlacesTheSequence := by
  intro u bs s hp hf
  refine ⟨s.withSource u bs, runOps_pseudoLoad hp hf, readSeq_withSource s u bs, ?_, fun w b c hout => ?_, ?_⟩
  · simp [State.withSource]
  · rw [readCell_withSource]
    split
    next hsrc =>
      have hc : bs.length ≤ c := Nat.not_lt.mp fun hc => hout ⟨hsrc.1, hsrc.2, hc⟩
      rw [List.getElem?_eq_none hc, Option.getD_none]
    next => rfl
  · simp [State.withSource]

end Sys2Proof.Machine

/-! SUPPORT. The proofs about the encoder: its pure functions, the steps of unit ENC, and an ENCODE as
a whole (spec/40_encode.md). -/

namespace Sys2Proof.Machine

/-! ## The pure functions of the encoder (R100 to R106) -/

theorem encbit_injective : Function.Injective encbit := by decide

/-- Settles O1: by computation, and the two markers differ. -/
theorem encbitMapsBitToMarker : Obligations.EncbitMapsBitToMarker :=
  ⟨fun _ _ => rfl, fun _ _ h => encbit_injective h⟩

theorem Group.get_ofFn (f : Fin 8 → Byte) (j : Fin 8) : (Group.ofFn f).get j = f j := by
  fin_cases j <;> rfl

theorem enc8_get (p : Byte) (j : Fin 8) : (enc8 p).get j = encbit (p.getLsbD (7 - j.val)) :=
  Group.get_ofFn ..

/-- Equal groups have equal markers, and a marker tells its bit. -/
theorem enc8_injective : Function.Injective enc8 := by
  intro p q h
  refine BitVec.eq_of_getLsbD_eq fun i hi => ?_
  have hbit (j : Fin 8) : p.getLsbD (7 - j.val) = q.getLsbD (7 - j.val) :=
    encbit_injective (by rw [← enc8_get, h, enc8_get])
  simpa only [Nat.sub_sub_self (Nat.le_of_lt_succ hi)] using hbit ⟨7 - i, by omega⟩

/-- Settles O2: the markers position by position, and the rule's groups by computation. -/
theorem enc8SerializesMsbFirst : Obligations.Enc8SerializesMsbFirst :=
  ⟨fun _ _ => rfl, enc8_get, enc8_toList_length, fun _ _ h => enc8_injective h,
    by decide, by decide, by decide, by decide, by decide⟩

theorem iterate_shiftLeftOne (m : Nat) (sr : Byte) : shiftLeftOne^[m] sr = sr <<< m := by
  induction m with
  | zero => simp
  | succ m ih => rw [Function.iterate_succ_apply', ih, shiftLeftOne, BitVec.shiftLeft_add]

/-- Each shift brings the next lower bit to the top. -/
theorem iterate_shiftLeftOne_top (p : Byte) (j : Fin 8) :
    (shiftLeftOne^[j.val] p).getLsbD 7 = p.getLsbD (7 - j.val) := by
  have hj : ¬7 < j.val := by omega
  simp only [iterate_shiftLeftOne, BitVec.getLsbD_shiftLeft, hj]
  rfl

theorem shiftOut_eq_map (m : Nat) (sr : Byte) :
    shiftOut m sr = (List.range m).map fun j => encbit ((shiftLeftOne^[j] sr).getLsbD 7) := by
  induction m generalizing sr with
  | zero => rfl
  | succ m ih => simp [shiftOut, ih, List.range_succ_eq_map, Function.comp_def]

/-- Settles O3: marker `j` of the shift form is that of the bit `j` shifts bring to the top. -/
theorem enc8EqualsShiftForm : Obligations.Enc8EqualsShiftForm := by
  refine fun p => ⟨?_, iterate_shiftLeftOne_top p⟩
  rw [shiftOut_eq_map, ← List.map_coe_finRange_eq_range, List.map_map]
  simp only [Function.comp_def, iterate_shiftLeftOne_top]
  rfl

theorem encodeSeq_length (x : List Byte) : (encodeSeq x).length = 8 * x.length := by
  induction x with
  | nil => rfl
  | cons p rest ih =>
    rw [encodeSeq, List.length_append, enc8_toList_length, ih, List.length_cons]
    omega

/-- Settles O10: the length by induction, and each marker by its offset in the encoding. -/
theorem encodeElementwise : Obligations.EncodeElementwise :=
  fun x => ⟨encodeSeq_length x, fun _ hi j => encodeSeq_getElem? (List.getElem?_eq_getElem hi) j⟩

/-! ## A turn of a unit completes (R109, R140, R193) -/

/-- With `pos` at most `n` a BUSY unit ENC has an enabled step. -/
theorem encTurn_completes {s : State} (h : s.Inv) : ∃ t, encTurn s = .next t := by
  by_cases hp : s.enc.phase = .busy
  · obtain hlt | heq := Nat.lt_or_eq_of_le (inv_pos_le_n h .enc)
    · exact ⟨_, encTurn_emit hp hlt⟩
    · exact ⟨_, encTurn_final hp heq⟩
  · exact ⟨_, encTurn_not_busy hp⟩

/-- With `pos` at most `n` a BUSY unit DEC has an enabled step. -/
theorem decTurn_completes {s : State} (h : s.Inv) : ∃ t, decTurn s = .next t := by
  by_cases hp : s.dec.phase = .busy
  · cases hs : s.decSub with
    | check => exact ⟨_, decTurn_check hp hs⟩
    | scan =>
      obtain hlt | heq := Nat.lt_or_eq_of_le (inv_pos_le_n h .dec)
      · exact ⟨_, decTurn_group hp hs hlt⟩
      · exact ⟨_, decTurn_final hp hs heq⟩
  · exact ⟨_, decTurn_not_busy hp⟩

theorem hostTurn_ne_fault (s : State) (f : Fault) : hostTurn s ≠ .fault f := by
  unfold hostTurn
  split
  · nofun
  · split
    · exact exec_ne_fault _ _ f
    · nofun

theorem takeTurn_ne_fault {s : State} (h : s.Inv) (a : Turn) (f : Fault) : takeTurn a s ≠ .fault f := by
  cases a with
  | host => exact hostTurn_ne_fault s f
  | enc => obtain ⟨t, ht⟩ := encTurn_completes h; simp [takeTurn, ht]
  | dec => obtain ⟨t, ht⟩ := decTurn_completes h; simp [takeTurn, ht]
  | platform => nofun

/-- Settles O48: the units' turns complete, and the host's operations complete or are refused. -/
theorem safeStateNeverFaults : Obligations.SafeStateNeverFaults :=
  fun _ f h => takeTurn_ne_fault (inv_nextTurn h) _ f

/-- A step of a BUSY unit ENC ends the operation or moves the write offset. -/
theorem encTurn_progress {s t : State} (hp : s.enc.phase = .busy) (h : encTurn s = .next t) :
    (t.enc.phase, t.enc.pos, t.encK) ≠ (s.enc.phase, s.enc.pos, s.encK) := by
  intro heq
  obtain ⟨hphase, hpos, hk⟩ : t.enc.phase = s.enc.phase ∧ t.enc.pos = s.enc.pos ∧ t.encK = s.encK := by
    simpa using heq
  obtain ⟨hidle, -⟩ | ⟨-, -, rfl⟩ | ⟨-, -, rfl⟩ := encTurn_next h
  · exact hidle hp
  · have hoff := encEmit_writeOffset s
    rw [hpos, hk] at hoff
    omega
  · simp [encFinal, hp] at hphase

/-- A step of a BUSY unit DEC ends the operation, passes the length check or consumes a group. -/
theorem decTurn_progress {s t : State} (hp : s.dec.phase = .busy) (h : decTurn s = .next t) :
    (t.dec.phase, t.dec.pos, t.decSub) ≠ (s.dec.phase, s.dec.pos, s.decSub) := by
  intro heq
  obtain ⟨hphase, hpos, hsub⟩ : t.dec.phase = s.dec.phase ∧ t.dec.pos = s.dec.pos ∧ t.decSub = s.decSub := by
    simpa using heq
  rw [hp] at hphase
  obtain ⟨hidle, -⟩ | ⟨-, hs, rfl⟩ | ⟨-, -, -, rfl⟩ | ⟨-, -, -, rfl⟩ := decTurn_next h
  · exact hidle hp
  · unfold decCheck at hphase hsub
    split at hphase
    next => simp [raiseError_phase] at hphase
    next hgood => simp [hgood, hs] at hsub
  · cases hg : dec8 (readGroup s s.dec.pos) with
    | ok p => rw [decGroup_ok hg] at hpos; simp at hpos
    | invalid j v => simp [decGroup_invalid hg, raiseError_phase] at hphase
  · cases hphase

/-- Settles O38: a BUSY unit's turn completes and moves it, and the turn of another unit passes. -/
theorem busyUnitIsNeverStuck : Obligations.BusyUnitIsNeverStuck := by
  refine fun s h => ⟨fun hp => ?_, fun hp => ?_, encTurn_not_busy, decTurn_not_busy⟩
  · obtain ⟨t, ht⟩ := encTurn_completes h
    exact ⟨t, ht, encTurn_progress hp ht⟩
  · obtain ⟨t, ht⟩ := decTurn_completes h
    exact ⟨t, ht, decTurn_progress hp ht⟩

/-! ## What a unit's step leaves alone (R110, R111, R114, R141) -/

/-- The emit step writes one cell (R110). -/
theorem readCell_encEmit (s : State) (w : UnitId) (b : Buf) (c : Nat) :
    readCell (encEmit s) w b c =
      if w = .enc ∧ b = .dst ∧ c = encWriteOffset s.enc.pos s.encK
      then encbit ((readCell s .enc .src s.enc.pos).getLsbD (encBitIndex s.encK))
      else readCell s w b c := by
  rw [← readCell_writeDst, encEmit_eq]
  cases w <;> rfl

/-- A group step that decodes writes one cell (R136). -/
theorem readCell_decGroup_ok {s : State} {p : Byte} (h : dec8 (readGroup s s.dec.pos) = .ok p)
    (w : UnitId) (b : Buf) (c : Nat) :
    readCell (decGroup s) w b c =
      if w = .dec ∧ b = .dst ∧ c = decWriteOffset s.dec.pos then p else readCell s w b c := by
  rw [← readCell_writeDst, decGroup_ok h]
  cases w <;> rfl

theorem readCell_raiseError (e : CodecError) (s : State) (w : UnitId) (b : Buf) (c : Nat) :
    readCell (raiseError e s) w b c = readCell s w b c := by
  rw [raiseError_frame]
  cases w <;> rfl

theorem readCell_decCheck (s : State) (w : UnitId) (b : Buf) (c : Nat) :
    readCell (decCheck s) w b c = readCell s w b c := by
  unfold decCheck
  split
  · exact readCell_raiseError ..
  · cases w <;> rfl

/-- A turn of unit ENC writes no `DST` cell past the result. -/
theorem encTurn_dst_past {s t : State} (h : encTurn s = .next t) {a : Nat} (ha : encOutLen s.enc.n ≤ a) :
    readCell t .enc .dst a = readCell s .enc .dst a := by
  obtain ⟨-, rfl⟩ | ⟨-, hpos, rfl⟩ | ⟨-, -, rfl⟩ := encTurn_next h
  · rfl
  · have hlt := encWriteOffset_lt hpos s.encK
    rw [readCell_encEmit, if_neg (by omega)]
  · rfl

/-- In phase SCAN the length is a multiple of 8, so a group step stays below `n div 8`. -/
theorem decTurn_dst_past {s t : State} (hinv : s.Inv) (h : decTurn s = .next t) {a : Nat}
    (ha : decOutLen s.dec.n ≤ a) : readCell t .dec .dst a = readCell s .dec .dst a := by
  obtain ⟨-, rfl⟩ | ⟨-, -, rfl⟩ | ⟨hp, hs, hpos, rfl⟩ | ⟨-, -, -, rfl⟩ := decTurn_next h
  · rfl
  · exact readCell_decCheck ..
  · cases hg : dec8 (readGroup s s.dec.pos) with
    | ok p =>
      obtain ⟨-, -, -, -, -, -, -, -, -, -, hscan, -⟩ := hinv
      obtain ⟨hn, -⟩ := hscan hp hs
      have hlt : decWriteOffset s.dec.pos < decOutLen s.dec.n := by
        unfold decWriteOffset decOutLen; omega
      rw [readCell_decGroup_ok hg, if_neg (by omega)]
    | invalid j v => rw [decGroup_invalid hg, readCell_raiseError]
  · rfl

/-- A unit that moves forward keeps every register but these. -/
theorem MovesForward.regs_eq {u : UnitId} {r r' : UnitRegs} (h : MovesForward u r r') :
    r' = { r with phase := r'.phase, outLen := r'.outLen, pos := r'.pos, dst := r'.dst } := by
  obtain ⟨-, hn, hlen, hsrc⟩ := h
  simp only [← hn, ← hlen, ← hsrc]

/-- Settles O39: a turn changes its own unit's registers, of these neither `LEN` nor `n` nor `SRC`, and
writes below the result's length. -/
theorem unitTurnsKeepTheirFrame : Obligations.UnitTurnsKeepTheirFrame := by
  refine ⟨fun s t h => ⟨?_, fun a => encTurn_dst_past h⟩,
    fun s t hinv h => ⟨?_, fun a => decTurn_dst_past hinv h⟩⟩
  · rw [← (encTurn_movesForward h).regs_eq]; exact encTurn_frame h
  · rw [← (decTurn_movesForward h).regs_eq]; exact decTurn_frame h

/-- The schedule is no part of what a cell holds. -/
theorem readCell_turns (s : State) (ts : List Turn) (w : UnitId) (b : Buf) (c : Nat) :
    readCell { s with turns := ts } w b c = readCell s w b c := by
  cases w <;> rfl

/-- Settles O29: the emit step from the state with the turn taken. -/
theorem encEmitStepWritesOneMarker : Obligations.EncEmitStepWritesOneMarker := by
  intro s ts hts hp hpos
  refine ⟨encEmit { s with turns := ts }, (step_of_turns hts).trans (encTurn_emit hp hpos), ?_,
    fun w b c hne => ?_, ?_, ?_⟩
  · rw [readCell_encEmit, if_pos ⟨rfl, rfl, rfl⟩]; rfl
  · exact (readCell_encEmit ..).trans ((if_neg hne).trans (readCell_turns ..))
  · rw [encEmit_eq]
  · rw [encEmit_eq]
    simp [statusOf, hp, errKindOf]

/-- Settles O30: the final step from the state with the turn taken. -/
theorem encFinalStepPublishesTheResult : Obligations.EncFinalStepPublishesTheResult := by
  intro s ts hts hp hpos
  exact ⟨encFinal { s with turns := ts }, (step_of_turns hts).trans (encTurn_final hp hpos), rfl,
    statusByte_done, rfl, rfl⟩

/-! ## START of unit ENC (R108, R153) -/

theorem exec_encode_next {s t : State} (hp : s.enc.phase ≠ .busy) (h : exec .encode s = .next t) :
    t = { s with enc := startRegs s.enc, encK := 0 } := by
  obtain ⟨hb, -⟩ | ⟨-, -, -, ht⟩ | ⟨hu, -⟩ := startUnit_next (u := .enc) h
  · exact absurd hb hp
  · exact ht
  · cases hu

theorem exec_encode_of_fits {s : State} (hp : s.enc.phase ≠ .busy)
    (hf : fits s.cfg (encOutLen s.enc.len) = true) :
    exec .encode s = .next { s with enc := startRegs s.enc, encK := 0 } := by
  simp [exec, execEncode, startUnit, hp, hf]

/-! ## The number of ENC steps (R113) -/

/-- The write offset of a safe state never passes the result's length (R24). -/
theorem inv_encWriteOffset_le {s : State} (h : s.Inv) :
    encWriteOffset s.enc.pos s.encK ≤ encOutLen s.enc.n := by
  obtain ⟨-, ⟨-, -, hle, hk, -⟩, -⟩ := h
  obtain hlt | heq := Nat.lt_or_eq_of_le hle
  · exact (encWriteOffset_lt hlt _).le
  · rw [hk heq, heq]; exact le_rfl

/-- The write offset tells whether bytes are left. -/
theorem pos_lt_of_encWriteOffset_lt {pos n : Nat} {k : Fin 8} (h : encWriteOffset pos k < encOutLen n) :
    pos < n := by
  unfold encWriteOffset encOutLen at h
  omega

theorem pos_eq_of_encWriteOffset_eq {s : State} (h : s.Inv)
    (hoff : encWriteOffset s.enc.pos s.encK = encOutLen s.enc.n) : s.enc.pos = s.enc.n := by
  have hle : s.enc.pos ≤ s.enc.n := inv_pos_le_n h .enc
  unfold encWriteOffset encOutLen at hoff
  omega

/-- Turns of one agent, one more at the end. -/
theorem repeatTurn_succ {a : Turn} {m : Nat} {s v : State} (h : repeatTurn a m s = .next v) :
    repeatTurn a (m + 1) s = takeTurn a v := by
  induction m generalizing s with
  | zero =>
    cases h
    cases hs : takeTurn a v <;> simp only [repeatTurn, hs]
  | succ m ih =>
    rw [repeatTurn] at h
    split at h
    next s' hs => rw [repeatTurn, hs]; exact ih h
    next => cases h
    next => cases h

theorem encEmit_phase (s : State) : (encEmit s).enc.phase = s.enc.phase := by rw [encEmit_eq]

theorem encEmit_n (s : State) : (encEmit s).enc.n = s.enc.n := by rw [encEmit_eq]

/-- While markers are left each turn of ENC is an emit step, which moves the write offset by one. -/
theorem repeatTurn_enc_emits {s : State} (h : s.Inv) (hp : s.enc.phase = .busy) (m : Nat)
    (hm : encWriteOffset s.enc.pos s.encK + m ≤ encOutLen s.enc.n) :
    ∃ v, repeatTurn .enc m s = .next v ∧ v.Inv ∧ v.enc.phase = .busy ∧ v.enc.n = s.enc.n ∧
      encWriteOffset v.enc.pos v.encK = encWriteOffset s.enc.pos s.encK + m := by
  induction m with
  | zero => exact ⟨s, rfl, h, hp, rfl, rfl⟩
  | succ m ih =>
    obtain ⟨v, hv, hinv, hbusy, hn, hoff⟩ := ih (by omega)
    have hpos : v.enc.pos < v.enc.n := pos_lt_of_encWriteOffset_lt (k := v.encK) (by rw [hoff, hn]; omega)
    exact ⟨encEmit v, (repeatTurn_succ hv).trans (encTurn_emit hbusy hpos), inv_encEmit hinv hbusy hpos,
      (encEmit_phase v).trans hbusy, (encEmit_n v).trans hn, by rw [encEmit_writeOffset, hoff]; rfl⟩

/-- Settles O55: from write offset 0 the emit steps lead to `8 × n`, where the final step follows. -/
theorem encodeStepCount : Obligations.EncodeStepCount := by
  intro s t h hp ht
  have hinv := inv_exec h ht
  obtain rfl := exec_encode_next hp ht
  have hemits {m : Nat} (hm : m ≤ 8 * s.enc.len) :=
    repeatTurn_enc_emits hinv rfl m (by simpa [encWriteOffset, encOutLen] using hm)
  refine ⟨fun m hm => ?_, ?_⟩
  · obtain ⟨v, hv, -, hbusy, -, hoff⟩ := hemits hm
    exact ⟨v, hv, hbusy, by simpa [encWriteOffset] using hoff⟩
  · obtain ⟨v, hv, hinv', hbusy, hn, hoff⟩ := hemits le_rfl
    have hpos : v.enc.pos = v.enc.n := pos_eq_of_encWriteOffset_eq hinv' (by
      rw [hoff, hn]; simp [encWriteOffset, encOutLen])
    exact ⟨encFinal v, (repeatTurn_succ hv).trans (encTurn_final hbusy hpos), rfl⟩

/-! ## A schedule of unit turns (R17, R159) -/

/-- The schedule is no part of the invariant. -/
theorem inv_turns {s : State} (h : s.Inv) (ts : List Turn) : State.Inv { s with turns := ts } := by
  obtain ⟨hbuf, henc, hdec⟩ := h
  exact ⟨hbuf.congr rfl rfl rfl rfl rfl, henc.congr rfl rfl rfl rfl, hdec.congr rfl rfl rfl rfl rfl rfl rfl⟩

/-- A step whose turn is not the platform's, with no host operation pending: the turn is used up, and
the agent named moves its unit. -/
theorem step_no_requests {s t : State} {a : Turn} {ts : List Turn} (hreq : s.requests = [])
    (hts : s.turns = a :: ts) (ha : a ≠ .platform) (h : step s = .next t) :
    (a = .host ∧ t = { s with turns := ts }) ∨
    (a = .enc ∧ encTurn { s with turns := ts } = .next t) ∨
    (a = .dec ∧ decTurn { s with turns := ts } = .next t) := by
  rw [step_of_turns hts] at h
  cases a with
  | host =>
    obtain rfl : { s with turns := ts } = t := by
      simpa [takeTurn, hostTurn_of_no_requests (s := { s with turns := ts }) hreq] using h
    exact .inl ⟨rfl, rfl⟩
  | enc => exact .inr (.inl ⟨rfl, h⟩)
  | dec => exact .inr (.inr ⟨rfl, h⟩)
  | platform => exact absurd rfl ha

theorem step_no_requests_turns {s t : State} {a : Turn} {ts : List Turn} (hreq : s.requests = [])
    (hts : s.turns = a :: ts) (ha : a ≠ .platform) (h : step s = .next t) :
    t.turns = ts ∧ t.requests = [] := by
  obtain ⟨-, rfl⟩ | ⟨-, ht⟩ | ⟨-, ht⟩ := step_no_requests hreq hts ha h
  · exact ⟨rfl, hreq⟩
  · rw [encTurn_frame ht]; exact ⟨rfl, hreq⟩
  · rw [decTurn_frame ht]; exact ⟨rfl, hreq⟩

/-- In a safe state with no host operation pending such a step completes. -/
theorem step_no_requests_completes {s : State} (h : s.Inv) {a : Turn} {ts : List Turn}
    (hreq : s.requests = []) (hts : s.turns = a :: ts) : ∃ t, step s = .next t := by
  rw [step_of_turns hts]
  cases a with
  | host => exact ⟨_, hostTurn_of_no_requests hreq⟩
  | enc => exact encTurn_completes (inv_turns h ts)
  | dec => exact decTurn_completes (inv_turns h ts)
  | platform => exact ⟨_, rfl⟩

theorem run_succ {s t : State} (h : step s = .next t) (m : Nat) :
    Host.Core.run core (m + 1) s = Host.Core.run core m t := by
  have hcore : core.step s = .next t := h
  simp only [Host.Core.run, hcore]

/-- A whole schedule with no host operation pending and no RESET runs to its end, and what each of its
steps keeps holds there. -/
theorem run_schedule {P : State → Prop}
    (hkeep : ∀ {s t : State} {a : Turn} {ts : List Turn}, s.Inv → s.requests = [] → s.turns = a :: ts →
      a ≠ .platform → step s = .next t → P s → P t)
    {s : State} (h : s.Inv) (hreq : s.requests = []) (hplat : Turn.platform ∉ s.turns) (hP : P s) :
    ∃ v, Host.Core.run core s.turns.length s = .next v ∧ v.Inv ∧ v.turns = [] ∧ P v := by
  generalize hts : s.turns = ts at hplat ⊢
  induction ts generalizing s with
  | nil => exact ⟨s, rfl, h, hts, hP⟩
  | cons a ts ih =>
    have ha : a ≠ .platform := fun ha => hplat (ha ▸ List.mem_cons_self)
    obtain ⟨t, ht⟩ := step_no_requests_completes h hreq hts
    obtain ⟨htt, htr⟩ := step_no_requests_turns hreq hts ha ht
    obtain ⟨v, hv, hend⟩ := ih (stepKeepsInvariant s t h ht) htr (hkeep h hreq hts ha ht hP)
      htt fun hmem => hplat (List.mem_cons_of_mem a hmem)
    exact ⟨v, (run_succ ht _).trans hv, hend⟩

theorem decTurn_encK {s t : State} (h : decTurn s = .next t) : t.encK = s.encK := by
  rw [decTurn_frame h]; rfl

/-! ## An ENCODE under a schedule (R108, R233) -/

/-- The result is there when the final step publishes it (R108, R112). -/
theorem encResult_encFinal {s : State} {x : List Byte} (h : s.Inv) (hrun : EncRunning x s)
    (hpos : s.enc.pos = s.enc.n) : EncResult x (encFinal s) := by
  obtain ⟨hp, hn, hsrc⟩ := hrun
  obtain ⟨-, ⟨-, -, -, hk, -, hbusy, -⟩, -⟩ := h
  obtain ⟨-, -, hstands⟩ := hbusy hp
  have hoff : encWriteOffset s.enc.pos s.encK = 8 * x.length := by rw [hk hpos, hpos, hn]; rfl
  rw [hoff, hn, hsrc, List.take_of_length_le (encodeSeq_length x).le] at hstands
  exact ⟨statusByte_done, congrArg encOutLen hn, hstands, rfl, rfl⟩

/-- The emit step leaves `SRC` and the latched length alone. -/
theorem encRunning_encEmit {s : State} {x : List Byte} (hrun : EncRunning x s) : EncRunning x (encEmit s) := by
  obtain ⟨hp, hn, hsrc⟩ := hrun
  exact ⟨(encEmit_phase s).trans hp, (encEmit_n s).trans hn,
    (readSeq_of_buf (by rw [encEmit_eq]; rfl) (by rw [encEmit_eq]) _).trans hsrc⟩

theorem EncResult.not_busy {s : State} {x : List Byte} (h : EncResult x s) : s.enc.phase ≠ .busy := by
  obtain ⟨hstatus, -⟩ := h
  intro hp
  simp [statusOf, hp, errKindOf] at hstatus

/-- Unit ENC holds the result of an ENCODE of `x`, or runs it and `c` more turns of its own suffice. -/
def EncEndsWithin (x : List Byte) (c : Nat) (s : State) : Prop :=
  (EncRunning x s ∧ encOutLen x.length + 1 ≤ encWriteOffset s.enc.pos s.encK + c) ∨ EncResult x s

/-- What the other agents do is no matter to an ENCODE. -/
theorem EncEndsWithin.congr {x : List Byte} {c : Nat} {s t : State} (h : EncEndsWithin x c s)
    (he : t.enc = s.enc) (hk : t.encK = s.encK) (hp : t.epoch = s.epoch) : EncEndsWithin x c t := by
  have hr (b m) : readSeq t .enc b m = readSeq s .enc b m := readSeq_of_buf (by simp [he]) hp m
  simpa only [EncEndsWithin, EncRunning, EncResult, statusOf, State.unit_enc, errKindOf, errValueOf,
    errOffsetOf, he, hk, hr] using h

/-- A turn of ENC brings the end one turn nearer. -/
theorem EncEndsWithin.of_encTurn {x : List Byte} {c : Nat} {s t : State} (hinv : s.Inv)
    (h : EncEndsWithin x (c + 1) s) (ht : encTurn s = .next t) : EncEndsWithin x c t := by
  obtain ⟨hrun, hc⟩ | hres := h
  · have ⟨hbusy, _⟩ := hrun
    obtain ⟨hidle, -⟩ | ⟨-, hpos, rfl⟩ | ⟨-, hpos, rfl⟩ := encTurn_next ht
    · exact absurd hbusy hidle
    · exact .inl ⟨encRunning_encEmit hrun, by rw [encEmit_writeOffset]; omega⟩
    · exact .inr (encResult_encFinal hinv hrun hpos)
  · rw [encTurn_not_busy hres.not_busy] at ht
    cases ht
    exact .inr hres

/-- With no turn left to wait for, the result is there: no write offset passes `8 × n`. -/
theorem EncEndsWithin.result {x : List Byte} {s : State} (hinv : s.Inv) (h : EncEndsWithin x 0 s) :
    EncResult x s := by
  obtain ⟨⟨-, hn, -⟩, hc⟩ | hres := h
  · have hle := inv_encWriteOffset_le hinv
    rw [hn] at hle
    omega
  · exact hres

/-- Under a schedule ENC's result comes nearer with each of its turns and moves away with no other. -/
theorem step_encEndsWithin {x : List Byte} {s t : State} {a : Turn} {ts : List Turn} (hinv : s.Inv)
    (hreq : s.requests = []) (hts : s.turns = a :: ts) (ha : a ≠ .platform) (h : step s = .next t)
    (hs : EncEndsWithin x (s.turns.count .enc) s) : EncEndsWithin x (t.turns.count .enc) t := by
  obtain ⟨htt, -⟩ := step_no_requests_turns hreq hts ha h
  have hs' : EncEndsWithin x ((a :: ts).count .enc) { s with turns := ts } := hts ▸ hs.congr rfl rfl rfl
  rw [htt]
  obtain ⟨rfl, rfl⟩ | ⟨rfl, ht⟩ | ⟨rfl, ht⟩ := step_no_requests hreq hts ha h
  · simpa using hs'
  · exact EncEndsWithin.of_encTurn (inv_turns hinv ts) (by simpa using hs') ht
  · exact EncEndsWithin.congr (by simpa using hs') (decTurn_enc ht) (decTurn_encK ht) (decTurn_epoch ht)

/-- No step of a schedule touches `SRC` or `LEN` of unit ENC. -/
theorem step_no_requests_enc_source {s t : State} {a : Turn} {ts : List Turn} (hreq : s.requests = [])
    (hts : s.turns = a :: ts) (ha : a ≠ .platform) (h : step s = .next t) :
    t.enc.src = s.enc.src ∧ t.enc.len = s.enc.len := by
  obtain ⟨-, rfl⟩ | ⟨-, ht⟩ | ⟨-, ht⟩ := step_no_requests hreq hts ha h
  · exact ⟨rfl, rfl⟩
  · obtain ⟨-, -, hlen, hsrc⟩ := encTurn_movesForward ht
    exact ⟨hsrc, hlen⟩
  · rw [decTurn_enc ht]; exact ⟨rfl, rfl⟩

/-- What every step of a schedule keeps of an ENCODE of `x`: the turns left suffice for the result, and
`SRC` and `LEN` are as given. -/
def EncOnSchedule (x : List Byte) (src : Memory) (len : Nat) (s : State) : Prop :=
  EncEndsWithin x (s.turns.count .enc) s ∧ s.enc.src = src ∧ s.enc.len = len

theorem step_encOnSchedule {x : List Byte} {src : Memory} {len : Nat} {s t : State} {a : Turn} {ts : List Turn}
    (hinv : s.Inv) (hreq : s.requests = []) (hts : s.turns = a :: ts) (ha : a ≠ .platform)
    (h : step s = .next t) (hs : EncOnSchedule x src len s) : EncOnSchedule x src len t := by
  obtain ⟨hends, hsrc, hlen⟩ := hs
  obtain ⟨hsrc', hlen'⟩ := step_no_requests_enc_source hreq hts ha h
  exact ⟨step_encEndsWithin hinv hreq hts ha h hends, hsrc'.trans hsrc, hlen'.trans hlen⟩

/-- Settles O53: START begins the run, and along the schedule the result comes nearer with each turn of
ENC until it is there. -/
theorem encodeRunsToItsResult : Obligations.EncodeRunsToItsResult := by
  intro s x h hp hlen hf hsrc hreq hplat hcount
  have ht := exec_encode_of_fits hp (by rwa [hlen])
  have hstart : EncOnSchedule x s.enc.src s.enc.len { s with enc := startRegs s.enc, encK := 0 } :=
    ⟨.inl ⟨⟨rfl, hlen, hsrc⟩, by simpa [encWriteOffset, encOutLen] using hcount⟩, rfl, rfl⟩
  obtain ⟨v, hv, hinv, hturns, hend, hkept⟩ :=
    run_schedule step_encOnSchedule (inv_exec h ht) hreq hplat hstart
  rw [hturns] at hend
  exact ⟨_, v, ht, hv, hend.result hinv, hkept⟩

end Sys2Proof.Machine

/-! SUPPORT. The proofs about the decoder: its pure functions, the steps of unit DEC, and a DECODE as
a whole (spec/41_decode.md). -/

namespace Sys2Proof.Machine

/-! ## One marker byte (R120 to R123) -/

theorem isMark_iff {m : Byte} : isMark m = true ↔ m = 0x00#8 ∨ m = 0xFF#8 := by
  simp [isMark]

theorem isMark_eq_false_iff {m : Byte} : isMark m = false ↔ m ≠ 0x00#8 ∧ m ≠ 0xFF#8 := by
  simp [isMark]

theorem markBit_iff {m : Byte} : markBit m = true ↔ m = 0xFF#8 := by
  simp [markBit]

/-- A legal marker is the marker of the bit it stands for (R100, R125). -/
theorem encbit_markBit {m : Byte} (h : isMark m = true) : encbit (markBit m) = m := by
  obtain rfl | rfl := isMark_iff.mp h <;> rfl

theorem markBit_encbit (b : Bool) : markBit (encbit b) = b := by
  cases b <;> rfl

theorem decmark_of_isMark {m : Byte} (h : isMark m = true) : decmark m = .bit (markBit m) := by
  obtain rfl | rfl := isMark_iff.mp h <;> rfl

theorem decmark_of_not_isMark {m : Byte} (h : isMark m = false) : decmark m = .invalid m := by
  obtain ⟨hzero, hone⟩ := isMark_eq_false_iff.mp h
  rw [decmark, if_neg hzero, if_neg hone]

/-- Settles O4: `decmark` is written as this classification. -/
theorem decmarkClassifiesByEquality : Obligations.DecmarkClassifiesByEquality :=
  fun _ _ => rfl

/-- Settles O6: every marker of a bit is legal and stands for that bit. -/
theorem decmarkInvertsEncbit : Obligations.DecmarkInvertsEncbit :=
  fun b => (decmark_of_isMark (isMark_encbit b)).trans (by rw [markBit_encbit])

/-- Settles O5: a well-formed `MARK.INVALID`, and a byte strictly between the two markers, is no marker. -/
theorem markCodesGiveTheirBit : Obligations.MarkCodesGiveTheirBit := by
  refine fun s => ⟨rfl, rfl, fun v hv => ?_, rfl, rfl, fun m hlow hhigh => ?_⟩
  · have hmark : isMark v = false := isMark_eq_false_iff.mpr (by simpa [WellFormed] using hv)
    rw [exec, execMarkInvalid, decmark_of_not_isMark hmark, answered]
  · refine decmark_of_not_isMark (isMark_eq_false_iff.mpr ⟨?_, ?_⟩)
    · rintro rfl; exact absurd hlow (by decide)
    · rintro rfl; exact absurd hhigh (by decide)

/-! ## One group: the scan and its parallel form (R124, R125) -/

/-- The accumulator of the scan with one more bit taken in at the low end (R124). -/
def pushBit (acc : Byte) (b : Bool) : Byte :=
  if b then setBitZero (shiftLeftOne acc) else shiftLeftOne acc

theorem pushBit_getLsbD (acc : Byte) (b : Bool) {i : Nat} (hi : i < 8) :
    (pushBit acc b).getLsbD i = if i = 0 then b else acc.getLsbD (i - 1) := by
  cases i with
  | zero => cases b <;> simp [pushBit, setBitZero, shiftLeftOne]
  | succ i =>
    have hi' : i < 8 := by omega
    cases b <;> simp [pushBit, setBitZero, shiftLeftOne, hi, BitVec.getLsbD_eq_getElem hi']

/-- The bits taken in stand in reading order at the low end, above them the old accumulator. -/
theorem foldl_pushBit_getLsbD (bs : List Bool) (acc : Byte) {i : Nat} (hi : i < 8) :
    (bs.foldl pushBit acc).getLsbD i =
      if i < bs.length then bs.getD (bs.length - 1 - i) false else acc.getLsbD (i - bs.length) := by
  induction bs generalizing acc with
  | nil => simp
  | cons b rest ih =>
    rw [List.foldl_cons, ih, List.length_cons]
    obtain hlt | rfl | hgt := Nat.lt_trichotomy i rest.length
    · have hidx : rest.length + 1 - 1 - i = (rest.length - 1 - i) + 1 := by omega
      rw [if_pos hlt, if_pos (by omega), hidx, List.getD_cons_succ]
    · rw [if_neg (by omega), if_pos (by omega), Nat.sub_self, pushBit_getLsbD _ _ (by omega)]; simp
    · have hsub : i - rest.length - 1 = i - (rest.length + 1) := by omega
      rw [if_neg (by omega), if_neg (by omega), pushBit_getLsbD _ _ (by omega), if_neg (by omega), hsub]

/-- The scan over any bytes: the first one that is no marker, else the bits of all of them taken in. -/
theorem scanGroup_eq_find? (ms : List (Fin 8 × Byte)) (acc : Byte) :
    scanGroup ms acc =
      match ms.find? (fun x => !isMark x.2) with
      | some (j, v) => .invalid j v
      | none => .ok ((ms.map fun x => markBit x.2).foldl pushBit acc) := by
  induction ms generalizing acc with
  | nil => rfl
  | cons x rest ih =>
    obtain ⟨j, m⟩ := x
    cases hm : isMark m with
    | true =>
      have hstep : scanGroup ((j, m) :: rest) acc = scanGroup rest (pushBit acc (markBit m)) := by
        rw [scanGroup, decmark_of_isMark hm]
        cases markBit m <;> rfl
      rw [hstep, ih, List.find?_cons_of_neg (by simp [hm])]
      rfl
    | false =>
      rw [scanGroup, decmark_of_not_isMark hm, List.find?_cons_of_pos (by simp [hm])]

/-- Two bytes are equal when they agree in the bit of each position of a group (R77). -/
theorem byte_eq_of_bits {p q : Byte} (h : ∀ j : Fin 8, p.getLsbD (7 - j.val) = q.getLsbD (7 - j.val)) :
    p = q := by
  refine BitVec.eq_of_getLsbD_eq fun i hi => ?_
  simpa only [Nat.sub_sub_self (Nat.le_of_lt_succ hi)] using h ⟨7 - i, by omega⟩

theorem assembleByte_getLsbD (g : Group) (j : Fin 8) :
    (assembleByte g).getLsbD (7 - j.val) = markBit (g.get j) := by
  rw [assembleByte, BitVec.getLsbD_ofBoolListBE]
  fin_cases j <;> rfl

/-- Taking in the eight bits one after another assembles the byte of the group. -/
theorem foldl_pushBit_positions (g : Group) :
    ((Group.positions g).map fun x => markBit x.2).foldl pushBit 0x00#8 = assembleByte g := by
  refine byte_eq_of_bits fun j => ?_
  rw [assembleByte_getLsbD, foldl_pushBit_getLsbD _ _ (by omega)]
  fin_cases j <;> rfl

theorem dec8_eq_dec8Parallel (g : Group) : dec8 g = dec8Parallel g := by
  rw [dec8, scanGroup_eq_find?, foldl_pushBit_positions]
  rfl

/-- Settles O8: the scan finds the first byte that is no marker, or takes in all eight bits. -/
theorem dec8EqualsParallelForm : Obligations.Dec8EqualsParallelForm :=
  dec8_eq_dec8Parallel

theorem Group.positions_eq_map (g : Group) :
    Group.positions g = (List.finRange 8).map fun j => (j, g.get j) :=
  rfl

/-- No position of a group holds an invalid byte exactly when all eight are markers. -/
theorem Group.find?_positions_eq_none {g : Group} :
    (Group.positions g).find? (fun x => !isMark x.2) = none ↔ ∀ j, isMark (g.get j) = true := by
  simp [Group.positions_eq_map]

/-- The position found is the least one that holds no marker. -/
theorem Group.find?_positions_eq_some {g : Group} {j : Fin 8} {v : Byte} :
    (Group.positions g).find? (fun x => !isMark x.2) = some (j, v) ↔
      g.get j = v ∧ isMark v = false ∧ ∀ i < j, isMark (g.get i) = true := by
  rw [Group.positions_eq_map, List.find?_eq_some_iff_getElem]
  simp only [Bool.not_eq_eq_eq_not, Bool.not_true, List.getElem_map, List.getElem_finRange, Fin.cast_mk,
    Prod.mk.injEq, Bool.not_not, List.length_map, List.length_finRange]
  constructor
  · rintro ⟨hv, i, hi, ⟨rfl, rfl⟩, hmin⟩
    exact ⟨rfl, hv, fun k hk => hmin k hk⟩
  · rintro ⟨rfl, hv, hmin⟩
    exact ⟨hv, j, j.isLt, ⟨rfl, rfl⟩, fun k hk => hmin ⟨k, hk.trans j.isLt⟩ hk⟩

/-- `DEC8` decodes a group exactly when all eight bytes are markers, to the byte they assemble (R125). -/
theorem dec8_eq_ok_iff {g : Group} {p : Byte} :
    dec8 g = .ok p ↔ (∀ j, isMark (g.get j) = true) ∧ assembleByte g = p := by
  rw [dec8_eq_dec8Parallel, dec8Parallel, ← Group.find?_positions_eq_none]
  split
  next h => simp [h]
  next h => simp [h]

/-- `DEC8` rejects a group for its least position that holds no marker (R125). -/
theorem dec8_eq_invalid_iff {g : Group} {j : Fin 8} {v : Byte} :
    dec8 g = .invalid j v ↔
      g.get j = v ∧ isMark v = false ∧ ∀ i < j, isMark (g.get i) = true := by
  rw [dec8_eq_dec8Parallel, dec8Parallel, ← Group.find?_positions_eq_some]
  split
  next h => simp [h]
  next h => simp [h]

/-- Settles O7: the two characterisations, the bits of the byte read off position by position. -/
theorem dec8GivesByteOrFirstInvalid : Obligations.Dec8GivesByteOrFirstInvalid := by
  refine ⟨fun _ _ => rfl, fun g p => ?_, fun g j v => ?_⟩
  · rw [dec8_eq_ok_iff]
    constructor
    · rintro ⟨hmarks, rfl⟩ j
      exact ⟨isMark_iff.mp (hmarks j), by rw [assembleByte_getLsbD, markBit_iff]⟩
    · intro h
      refine ⟨fun j => isMark_iff.mpr (h j).1, ?_⟩
      refine byte_eq_of_bits fun j => ?_
      rw [assembleByte_getLsbD, Bool.eq_iff_iff, markBit_iff, (h j).2]
  · simp only [dec8_eq_invalid_iff, isMark_eq_false_iff, isMark_iff, and_assoc]

/-! ## `DEC8` inverts `ENC8` (R127) -/

theorem Group.ext_get {g h : Group} (hget : ∀ j, g.get j = h.get j) : g = h :=
  Group.ext (hget 0) (hget 1) (hget 2) (hget 3) (hget 4) (hget 5) (hget 6) (hget 7)

/-- The group of a byte is the only one that decodes to it. -/
theorem dec8_eq_ok_iff_eq_enc8 {g : Group} {p : Byte} : dec8 g = .ok p ↔ g = enc8 p := by
  rw [dec8_eq_ok_iff]
  constructor
  · rintro ⟨hmarks, rfl⟩
    exact Group.ext_get fun j => by rw [enc8_get, assembleByte_getLsbD, encbit_markBit (hmarks j)]
  · rintro rfl
    refine ⟨fun j => by rw [enc8_get, isMark_encbit], byte_eq_of_bits fun j => ?_⟩
    rw [assembleByte_getLsbD, enc8_get, markBit_encbit]

/-- Settles O9: the groups that decode are the groups of the 256 bytes, which differ. -/
theorem dec8InvertsEnc8Uniquely : Obligations.Dec8InvertsEnc8Uniquely := by
  refine ⟨fun _ _ => dec8_eq_ok_iff_eq_enc8, ?_⟩
  have hrange : { g : Group | ∃ p, dec8 g = .ok p } = Set.range enc8 := by
    simp only [dec8_eq_ok_iff_eq_enc8, eq_comm, Set.range]
  rw [hrange, Set.ncard_range_of_injective enc8_injective, Nat.card_congr BitVec.equivFin.toEquiv, Nat.card_fin]
  rfl

/-! ## A sequence of groups (R130 to R132) -/

theorem Group.toList_length (g : Group) : g.toList.length = 8 := rfl

theorem Group.toList_eq_ofFn (g : Group) : g.toList = List.ofFn g.get := rfl

theorem Group.toList_getElem? (g : Group) (j : Fin 8) : g.toList[j.val]? = some (g.get j) := by
  rw [Group.toList_eq_ofFn, List.getElem?_ofFn, dif_pos j.isLt]

theorem exists_group_append {e : List Byte} (h : 8 ≤ e.length) :
    ∃ (g : Group) (rest : List Byte), e = g.toList ++ rest :=
  ⟨⟨e[0], e[1], e[2], e[3], e[4], e[5], e[6], e[7]⟩, e.drop 8, by
    simp only [Group.toList, List.cons_append, List.nil_append, List.getElem_cons_drop, List.drop_zero]⟩

/-- Induction over a sequence of whole groups, as `Decode` walks it. -/
theorem groups_induction {P : (e : List Byte) → e.length % 8 = 0 → Prop} (nil : P [] rfl)
    (group : ∀ (g : Group) (rest : List Byte) (hrest : rest.length % 8 = 0)
      (hlen : (g.toList ++ rest).length % 8 = 0), P rest hrest → P (g.toList ++ rest) hlen)
    (e : List Byte) (hlen : e.length % 8 = 0) : P e hlen := by
  by_cases hnil : e = []
  · subst hnil; exact nil
  · have hpos : 0 < e.length := List.length_pos_of_ne_nil hnil
    obtain ⟨g, rest, he⟩ := exists_group_append (e := e) (by omega)
    have hlength : e.length = 8 + rest.length := by rw [he, List.length_append, Group.toList_length]
    have ih := groups_induction nil group rest (by omega)
    subst he
    exact group g rest _ hlen ih
termination_by e.length

/-- The byte of a first group that decodes stands before what the rest decodes to. -/
theorem decodeGroups_group_append_ok {g : Group} {p : Byte} (hg : dec8 g = .ok p) {rest x : List Byte}
    {off : Nat} (hrest : decodeGroups rest (off + 8) = .ok x) :
    decodeGroups (g.toList ++ rest) off = .ok (p :: x) := by
  simp only [Group.toList, List.cons_append, List.nil_append, decodeGroups, hg, hrest]

/-- An error behind a first group that decodes is the result. -/
theorem decodeGroups_group_append_err {g : Group} {p : Byte} (hg : dec8 g = .ok p) {rest : List Byte}
    {off : Nat} {err : CodecError} (hrest : decodeGroups rest (off + 8) = .err err) :
    decodeGroups (g.toList ++ rest) off = .err err := by
  simp only [Group.toList, List.cons_append, List.nil_append, decodeGroups, hg, hrest]

/-- A first group that does not decode is the result. -/
theorem decodeGroups_group_append_invalid {g : Group} {j : Fin 8} {v : Byte} (hg : dec8 g = .invalid j v)
    (rest : List Byte) (off : Nat) :
    decodeGroups (g.toList ++ rest) off = .err (.invalidMarker v (off + j.val)) := by
  simp only [Group.toList, List.cons_append, List.nil_append, decodeGroups, hg]

theorem decodeGroups_encodeSeq (x : List Byte) (off : Nat) : decodeGroups (encodeSeq x) off = .ok x := by
  induction x generalizing off with
  | nil => rfl
  | cons p rest ih => exact decodeGroups_group_append_ok (dec8_eq_ok_iff_eq_enc8.mpr rfl) (ih _)

/-- The first `k` bytes of `e` are there and are markers. -/
def MarkersBelow (e : List Byte) (k : Nat) : Prop :=
  ∀ b < k, ∃ m, e[b]? = some m ∧ isMark m = true

/-- `e[k]` is `v`, no marker, and every byte before it is one. -/
def FirstInvalidAt (e : List Byte) (k : Nat) (v : Byte) : Prop :=
  e[k]? = some v ∧ isMark v = false ∧ MarkersBelow e k

theorem firstInvalidAt_group_append {g : Group} {j : Fin 8} {v : Byte} (hg : dec8 g = .invalid j v)
    (rest : List Byte) : FirstInvalidAt (g.toList ++ rest) j.val v := by
  obtain ⟨rfl, hv, hmin⟩ := dec8_eq_invalid_iff.mp hg
  have hget (i : Fin 8) : (g.toList ++ rest)[i.val]? = some (g.get i) := by
    rw [List.getElem?_append_left (by simp [Group.toList_length]), Group.toList_getElem?]
  exact ⟨hget j, hv, fun b hb => ⟨_, hget ⟨b, hb.trans j.isLt⟩, hmin _ hb⟩⟩

theorem FirstInvalidAt.append_of_markers {e : List Byte} {k : Nat} {v : Byte} (h : FirstInvalidAt e k v)
    {l : List Byte} (hl : ∀ m ∈ l, isMark m = true) : FirstInvalidAt (l ++ e) (l.length + k) v := by
  obtain ⟨hk, hv, hmin⟩ := h
  refine ⟨by rwa [List.getElem?_append_right (by omega), Nat.add_sub_cancel_left], hv, fun b hb => ?_⟩
  by_cases hbl : b < l.length
  · exact ⟨l[b], by rw [List.getElem?_append_left hbl, List.getElem?_eq_getElem hbl], hl _ (List.getElem_mem hbl)⟩
  · rw [List.getElem?_append_right (by omega)]
    exact hmin _ (by omega)

theorem FirstInvalidAt.exists_not_isMark {e : List Byte} {k : Nat} {v : Byte} (h : FirstInvalidAt e k v) :
    ∃ m ∈ e, isMark m = false := by
  obtain ⟨hk, hv, -⟩ := h
  exact ⟨v, List.mem_of_getElem? hk, hv⟩

/-- The markers at the front of a sequence end at its first invalid byte. -/
theorem FirstInvalidAt.le_of_markersBelow {e : List Byte} {k : Nat} {v : Byte} (h : FirstInvalidAt e k v)
    {p : Nat} (hmarks : MarkersBelow e p) : p ≤ k := by
  obtain ⟨hk, hv, -⟩ := h
  by_contra hlt
  obtain ⟨m, hm, hmark⟩ := hmarks k (by omega)
  obtain rfl : m = v := Option.some.inj (hm.symm.trans hk)
  simp [hv] at hmark

theorem FirstInvalidAt.unique {e : List Byte} {k k' : Nat} {v v' : Byte} (h : FirstInvalidAt e k v)
    (h' : FirstInvalidAt e k' v') : k = k' ∧ v = v' := by
  have ⟨hk, _, hmarks⟩ := h
  have ⟨hk', _, hmarks'⟩ := h'
  obtain rfl : k = k' := Nat.le_antisymm (h'.le_of_markersBelow hmarks) (h.le_of_markersBelow hmarks')
  exact ⟨rfl, Option.some.inj (hk.symm.trans hk')⟩

theorem isMark_of_mem_encodeSeq {x : List Byte} {m : Byte} (h : m ∈ encodeSeq x) : isMark m = true :=
  List.all_eq_true.mp (encodeSeq_all_isMark x) m h

/-- Whole groups either are an encoding or hold a first invalid byte, and `Decode` tells which. -/
theorem decodeGroups_cases {e : List Byte} (hlen : e.length % 8 = 0) (off : Nat) :
    (∃ x, e = encodeSeq x ∧ decodeGroups e off = .ok x) ∨
    (∃ k v, FirstInvalidAt e k v ∧ decodeGroups e off = .err (.invalidMarker v (off + k))) := by
  induction e, hlen using groups_induction generalizing off with
  | nil => exact .inl ⟨[], rfl, rfl⟩
  | group g rest _ _ ih =>
    cases hg : dec8 g with
    | ok p =>
      obtain rfl := dec8_eq_ok_iff_eq_enc8.mp hg
      obtain ⟨x, rfl, hx⟩ | ⟨k, v, hk, herr⟩ := ih (off + 8)
      · exact .inl ⟨p :: x, rfl, decodeGroups_group_append_ok hg hx⟩
      · refine .inr ⟨8 + k, v, ?_, Nat.add_assoc .. ▸ decodeGroups_group_append_err hg herr⟩
        exact hk.append_of_markers fun m hm => isMark_of_mem_encodeSeq (x := [p]) (by simpa [encodeSeq] using hm)
    | invalid j v =>
      exact .inr ⟨j.val, v, firstInvalidAt_group_append hg rest, decodeGroups_group_append_invalid hg rest off⟩

/-- What `Decode` can give, and when (R132, R133). -/
theorem decodeSeq_cases (e : List Byte) :
    (e.length % 8 ≠ 0 ∧ decodeSeq e = .err .lengthNotMultipleOf8) ∨
    (e.length % 8 = 0 ∧ ∃ x, e = encodeSeq x ∧ decodeSeq e = .ok x) ∨
    (e.length % 8 = 0 ∧ ∃ k v, FirstInvalidAt e k v ∧ decodeSeq e = .err (.invalidMarker v k)) := by
  by_cases hlen : e.length % 8 = 0
  · rw [decodeSeq, if_neg (not_not_intro hlen)]
    have hcases := decodeGroups_cases hlen 0
    simp only [Nat.zero_add] at hcases
    exact .inr (hcases.imp (⟨hlen, ·⟩) (⟨hlen, ·⟩))
  · exact .inl ⟨hlen, if_pos hlen⟩

/-- `Decode` gives `x` exactly for the encoding of `x`. -/
theorem decodeSeq_eq_ok_iff {e x : List Byte} : decodeSeq e = .ok x ↔ e = encodeSeq x := by
  constructor
  · intro h
    obtain ⟨-, herr⟩ | ⟨-, y, he, hy⟩ | ⟨-, k, v, -, herr⟩ := decodeSeq_cases e
    · simp [herr] at h
    · obtain rfl : y = x := by simpa [hy] using h
      exact he
    · simp [herr] at h
  · rintro rfl
    rw [decodeSeq, if_neg (by simp [encodeSeq_length]), decodeGroups_encodeSeq]

theorem decodeSeq_eq_lengthNotMultipleOf8_iff {e : List Byte} :
    decodeSeq e = .err .lengthNotMultipleOf8 ↔ e.length % 8 ≠ 0 := by
  obtain ⟨hlen, h⟩ | ⟨hlen, x, -, h⟩ | ⟨hlen, k, v, -, h⟩ := decodeSeq_cases e <;> simp [hlen, h]

theorem decodeSeq_eq_invalidMarker_iff {e : List Byte} {v : Byte} {a : Nat} :
    decodeSeq e = .err (.invalidMarker v a) ↔ e.length % 8 = 0 ∧ FirstInvalidAt e a v := by
  obtain ⟨hlen, h⟩ | ⟨hlen, x, rfl, h⟩ | ⟨hlen, k, w, hk, h⟩ := decodeSeq_cases e
  · simp [hlen, h]
  · have hno : ¬FirstInvalidAt (encodeSeq x) a v := fun ha => by
      obtain ⟨m, hm, hmark⟩ := ha.exists_not_isMark
      simp [isMark_of_mem_encodeSeq hm] at hmark
    simp [h, hno]
  · simp only [h, hlen, DecodeResult.err.injEq, CodecError.invalidMarker.injEq, true_and]
    constructor
    · rintro ⟨rfl, rfl⟩; exact hk
    · intro ha
      obtain ⟨rfl, rfl⟩ := hk.unique ha
      exact ⟨rfl, rfl⟩

/-- The sequences that decode are the well-formed expanded sequences (R74, R132). -/
theorem exists_decodeSeq_eq_ok_iff {e : List Byte} :
    (∃ x, decodeSeq e = .ok x) ↔ e.length % 8 = 0 ∧ ∀ m ∈ e, isMark m = true := by
  constructor
  · rintro ⟨x, hx⟩
    obtain rfl := decodeSeq_eq_ok_iff.mp hx
    exact ⟨by simp [encodeSeq_length], fun m => isMark_of_mem_encodeSeq⟩
  · rintro ⟨hlen, hmarks⟩
    obtain ⟨hbad, -⟩ | ⟨-, x, -, hx⟩ | ⟨-, k, v, hk, -⟩ := decodeSeq_cases e
    · exact absurd hlen hbad
    · exact ⟨x, hx⟩
    · obtain ⟨m, hm, hmark⟩ := hk.exists_not_isMark
      simp [hmarks m hm] at hmark

/-- Settles O12: the length check, then the first invalid byte, then the encodings. -/
theorem decodeResultExactly : Obligations.DecodeResultExactly := by
  refine fun e => ⟨decodeSeq_eq_lengthNotMultipleOf8_iff, fun v a => ?_, ?_⟩
  · have hbefore (b : Nat) :
        (∃ m, e[b]? = some m ∧ isMark m = true) ↔ e[b]? = some 0x00#8 ∨ e[b]? = some 0xFF#8 := by
      simp [isMark_iff, and_or_left, exists_or]
    simp only [decodeSeq_eq_invalidMarker_iff, FirstInvalidAt, MarkersBelow, hbefore, isMark_eq_false_iff, and_assoc]
  · simp only [exists_decodeSeq_eq_ok_iff, isMark_iff]

/-- Settles O11: the sequence is the encoding of the result, whose markers are known by their offset. -/
theorem decodeElementwise : Obligations.DecodeElementwise := by
  intro e x h
  obtain rfl := decodeSeq_eq_ok_iff.mp h
  refine ⟨by simp [encodeSeq_length], fun i hi j => ?_⟩
  have hmarker : (encodeSeq x)[8 * i + j.val]? = some (encbit (x[i].getLsbD (7 - j.val))) :=
    encodeSeq_getElem? (List.getElem?_eq_getElem hi) j
  rw [hmarker]
  cases x[i].getLsbD (7 - j.val) with
  | true => exact .inl ⟨rfl, rfl⟩
  | false => exact .inr ⟨rfl, rfl⟩

/-! ## The steps of unit DEC (R135 to R137) -/

theorem decCheck_of_bad_length {s : State} (h : s.dec.n % 8 ≠ 0) :
    decCheck s = raiseError .lengthNotMultipleOf8 s :=
  if_pos h

theorem decCheck_of_good_length {s : State} (h : s.dec.n % 8 = 0) : decCheck s = { s with decSub := .scan } :=
  if_neg (not_not_intro h)

/-- Settles O31: the check step from the state with the turn taken. -/
theorem decCheckStepTestsTheLength : Obligations.DecCheckStepTestsTheLength := by
  intro s ts hts hp hs
  have hstep : step s = .next (decCheck { s with turns := ts }) :=
    (step_of_turns hts).trans (decTurn_check hp hs)
  refine ⟨fun hbad => ⟨_, hstep, ?_⟩, fun hgood => ?_⟩
  · rw [decCheck_of_bad_length (s := { s with turns := ts }) hbad]
    exact ⟨rfl, statusByte_done_length⟩
  · rw [hstep, decCheck_of_good_length (s := { s with turns := ts }) hgood]

theorem readGroup_get (s : State) (pos : Nat) (j : Fin 8) :
    (readGroup s pos).get j = readCell s .dec .src (pos + j.val) :=
  Group.get_ofFn ..

/-- Settles O32: the group step from the state with the turn taken, the group read cell by cell. -/
theorem decGroupStepDecodesOneGroup : Obligations.DecGroupStepDecodesOneGroup := by
  intro s ts g hts hp hs hpos hcells
  have hstep : step s = .next (decGroup { s with turns := ts }) :=
    (step_of_turns hts).trans (decTurn_group hp hs hpos)
  obtain rfl : readGroup { s with turns := ts } s.dec.pos = g :=
    Group.ext_get fun j => (readGroup_get ..).trans (hcells j).symm
  refine ⟨fun p hg => ⟨_, hstep, ?_, fun w b c hne => ?_, ?_⟩, fun j v hg => ⟨_, hstep, ?_⟩⟩
  · exact (readCell_decGroup_ok hg ..).trans (if_pos ⟨rfl, rfl, rfl⟩)
  · exact (readCell_decGroup_ok hg ..).trans ((if_neg hne).trans (readCell_turns ..))
  · rw [decGroup_ok hg]
  · rw [decGroup_invalid hg]
    exact ⟨rfl, statusByte_done_marker⟩

/-- Settles O33: the final step from the state with the turn taken. -/
theorem decFinalStepPublishesTheResult : Obligations.DecFinalStepPublishesTheResult := by
  intro s ts hts hp hs hpos
  exact ⟨decFinal { s with turns := ts }, (step_of_turns hts).trans (decTurn_final hp hs hpos), rfl,
    statusByte_done⟩

/-! ## A running DECODE, turn by turn (R134, R138, R139) -/

/-- `DECODE` on a unit that is not BUSY (R153). -/
theorem exec_decode_of_not_busy {s : State} (hp : s.dec.phase ≠ .busy) :
    exec .decode s = .next { s with
      dec := startRegs s.dec
      decSub := .check
      decErrKind := .ok
      decErrValue := 0x00#8
      decErrOffset := 0 } :=
  if_neg hp

/-- How many steps of its DECODE a BUSY unit DEC has taken: the check, then one per group (R139). -/
def decStepsTaken (s : State) : Nat :=
  match s.decSub with
  | .check => 0
  | .scan => 1 + s.dec.pos / 8

theorem decStepsTaken_check {s : State} (h : s.decSub = .check) : decStepsTaken s = 0 := by
  rw [decStepsTaken, h]

theorem decStepsTaken_scan {s : State} (h : s.decSub = .scan) : decStepsTaken s = 1 + s.dec.pos / 8 := by
  rw [decStepsTaken, h]

theorem decStepCount_of_bad_length {e : List Byte} (h : e.length % 8 ≠ 0) : decStepCount e = 1 := by
  rw [decStepCount, decodeSeq_eq_lengthNotMultipleOf8_iff.mpr h]

theorem decStepCount_of_ok {e x : List Byte} (h : decodeSeq e = .ok x) :
    decStepCount e = 1 + e.length / 8 + 1 := by
  rw [decStepCount, h]

theorem decStepCount_of_invalid {e : List Byte} {v : Byte} {a : Nat}
    (h : decodeSeq e = .err (.invalidMarker v a)) : decStepCount e = 1 + a / 8 + 1 := by
  rw [decStepCount, h]

theorem decStepCount_pos (e : List Byte) : 0 < decStepCount e := by
  unfold decStepCount
  split <;> omega

/-- As long as all bytes below `p` are markers, the groups below `p` are steps before the last one. -/
theorem lt_decStepCount_of_markersBelow {e : List Byte} (hlen : e.length % 8 = 0) {p : Nat} (hp : p ≤ e.length)
    (hmarks : MarkersBelow e p) : 1 + p / 8 < decStepCount e := by
  obtain ⟨hbad, -⟩ | ⟨-, x, -, hx⟩ | ⟨-, k, v, hk, hx⟩ := decodeSeq_cases e
  · exact absurd hlen hbad
  · rw [decStepCount_of_ok hx]; omega
  · have hpk : p ≤ k := hk.le_of_markersBelow hmarks
    rw [decStepCount_of_invalid hx]
    omega

/-- What the invariant says of phase SCAN (R138). -/
theorem inv_dec_scan {s : State} (h : s.Inv) (hp : s.dec.phase = .busy) (hs : s.decSub = .scan) :
    s.dec.n % 8 = 0 ∧ s.dec.pos % 8 = 0 ∧
    decodeSeq (readSeq s .dec .src s.dec.pos) = .ok (readSeq s .dec .dst (decWriteOffset s.dec.pos)) := by
  obtain ⟨-, -, -, -, -, hmod, -, -, -, -, hscan, -⟩ := h
  obtain ⟨hn, -, hdec⟩ := hscan hp hs
  exact ⟨hn, hmod, hdec⟩

section
variable {e : List Byte} {s : State} (hrun : DecRunning e s)
include hrun

/-- A byte of the latched source is what its cell reads. -/
theorem DecRunning.getElem? {b : Nat} (hb : b < e.length) : e[b]? = some (readCell s .dec .src b) := by
  obtain ⟨-, -, hsrc⟩ := hrun
  have hget := readSeq_getElem? s .dec .src e.length b hb
  rwa [hsrc] at hget

variable (hinv : s.Inv)
include hinv

/-- In phase SCAN every byte that has been passed is a marker (R138). -/
theorem DecRunning.markersBelow_pos (hs : s.decSub = .scan) : MarkersBelow e s.dec.pos := by
  have ⟨hp, hn, _⟩ := hrun
  have hle : s.dec.pos ≤ s.dec.n := inv_pos_le_n hinv .dec
  obtain ⟨-, -, hdec⟩ := inv_dec_scan hinv hp hs
  obtain ⟨-, hmarks⟩ := exists_decodeSeq_eq_ok_iff.mp ⟨_, hdec⟩
  intro b hb
  have hread := readSeq_getElem? s .dec .src s.dec.pos b hb
  exact ⟨_, hrun.getElem? (by omega), hmarks _ (List.mem_of_getElem? hread)⟩

/-- A DECODE that still runs has steps left. -/
theorem DecRunning.stepsTaken_lt : decStepsTaken s < decStepCount e := by
  have ⟨hp, hn, _⟩ := hrun
  cases hs : s.decSub with
  | check => rw [decStepsTaken_check hs]; exact decStepCount_pos e
  | scan =>
    obtain ⟨hlen, -, -⟩ := inv_dec_scan hinv hp hs
    rw [decStepsTaken_scan hs]
    exact lt_decStepCount_of_markersBelow (hn ▸ hlen) (hn ▸ inv_pos_le_n hinv .dec) (hrun.markersBelow_pos hinv hs)

/-- The group that does not decode holds the first invalid byte of the source (R136, R138). -/
theorem DecRunning.firstInvalidAt (hs : s.decSub = .scan) (hpos : s.dec.pos < s.dec.n) {j : Fin 8} {v : Byte}
    (hg : dec8 (readGroup s s.dec.pos) = .invalid j v) : FirstInvalidAt e (s.dec.pos + j.val) v := by
  have ⟨hp, hn, _⟩ := hrun
  obtain ⟨hlen, hmod, -⟩ := inv_dec_scan hinv hp hs
  obtain ⟨rfl, hv, hmin⟩ := dec8_eq_invalid_iff.mp hg
  have hget (i : Fin 8) : e[s.dec.pos + i.val]? = some ((readGroup s s.dec.pos).get i) := by
    rw [readGroup_get, hrun.getElem? (by omega)]
  refine ⟨hget j, hv, fun b hb => ?_⟩
  by_cases hbelow : b < s.dec.pos
  · exact hrun.markersBelow_pos hinv hs b hbelow
  · obtain ⟨i, rfl⟩ := Nat.exists_eq_add_of_le (Nat.le_of_not_lt hbelow)
    have hij : i < j.val := Nat.lt_of_add_lt_add_left hb
    exact ⟨_, hget ⟨i, hij.trans j.isLt⟩, hmin _ hij⟩

end

/-- One step of unit DEC after `s`: the DECODE of `e` runs on, or that was its last step and its result
is there. -/
def DecAdvances (e : List Byte) (s t : State) : Prop :=
  (DecRunning e t ∧ decStepsTaken t = decStepsTaken s + 1) ∨
  (DecResult e t ∧ decStepCount e = decStepsTaken s + 1)

section
variable {e : List Byte} {s : State} (hinv : s.Inv) (hrun : DecRunning e s)
include hinv hrun

/-- A good length leaves the DECODE running, a bad one is its result (R135). -/
theorem decAdvances_decCheck (hs : s.decSub = .check) : DecAdvances e s (decCheck s) := by
  have ⟨hp, hn, _⟩ := hrun
  by_cases hlen : s.dec.n % 8 = 0
  · obtain ⟨-, -, -, -, -, -, -, -, -, hcheck, -⟩ := hinv
    rw [decCheck_of_good_length hlen]
    refine .inl ⟨hrun, ?_⟩
    rw [decStepsTaken_check hs, decStepsTaken_scan rfl, hcheck hp hs]
  · have hbad : e.length % 8 ≠ 0 := hn ▸ hlen
    rw [decCheck_of_bad_length hlen]
    refine .inr ⟨?_, by rw [decStepCount_of_bad_length hbad, decStepsTaken_check hs]⟩
    rw [DecResult, decodeSeq_eq_lengthNotMultipleOf8_iff.mpr hbad]
    exact ⟨statusByte_done_length, rfl, rfl, rfl⟩

/-- A group that decodes leaves the DECODE running, one that does not is its result (R136). -/
theorem decAdvances_decGroup (hs : s.decSub = .scan) (hpos : s.dec.pos < s.dec.n) :
    DecAdvances e s (decGroup s) := by
  have ⟨hp, hn, hsrc⟩ := hrun
  cases hg : dec8 (readGroup s s.dec.pos) with
  | ok p =>
    rw [decGroup_ok hg]
    refine .inl ⟨⟨hp, hn, hsrc⟩, ?_⟩
    simp only [decStepsTaken, hs]
    omega
  | invalid j v =>
    obtain ⟨hlen, hmod, -⟩ := inv_dec_scan hinv hp hs
    have hres : decodeSeq e = .err (.invalidMarker v (s.dec.pos + j.val)) :=
      decodeSeq_eq_invalidMarker_iff.mpr ⟨hn ▸ hlen, hrun.firstInvalidAt hinv hs hpos hg⟩
    rw [decGroup_invalid hg]
    refine .inr ⟨?_, by rw [decStepCount_of_invalid hres, decStepsTaken_scan hs]; omega⟩
    rw [DecResult, hres]
    exact ⟨statusByte_done_marker, rfl, rfl, rfl⟩

/-- The final step publishes what the scan has decoded (R137, R138). -/
theorem decAdvances_decFinal (hs : s.decSub = .scan) (hpos : s.dec.pos = s.dec.n) :
    DecAdvances e s (decFinal s) := by
  have ⟨hp, hn, hsrc⟩ := hrun
  obtain ⟨-, -, hres⟩ := inv_dec_scan hinv hp hs
  obtain ⟨-, -, hval, hoff⟩ := inv_not_done hinv (u := .dec) (by simp [hp])
  rw [hpos, hn, hsrc] at hres
  refine .inr ⟨?_, by rw [decStepCount_of_ok hres, decStepsTaken_scan hs, hpos, hn]⟩
  rw [DecResult, hres]
  exact ⟨statusByte_done, congrArg decOutLen hn, hval, hoff, rfl⟩

theorem decAdvances_decTurn {t : State} (h : decTurn s = .next t) : DecAdvances e s t := by
  obtain ⟨hidle, -⟩ | ⟨-, hs, rfl⟩ | ⟨-, hs, hpos, rfl⟩ | ⟨-, hs, hpos, rfl⟩ := decTurn_next h
  · exact absurd hrun.1 hidle
  · exact decAdvances_decCheck hinv hrun hs
  · exact decAdvances_decGroup hinv hrun hs hpos
  · exact decAdvances_decFinal hinv hrun hs hpos

end

theorem DecResult.status {e : List Byte} {s : State} (h : DecResult e s) :
    statusOf s .dec = 0x02#8 ∨ statusOf s .dec = 0x06#8 ∨ statusOf s .dec = 0x0A#8 := by
  unfold DecResult at h
  split at h
  · exact .inl h.1
  · exact .inr (.inl h.1)
  · exact .inr (.inr h.1)

/-- Each row of R134's table is a status of phase DONE. -/
theorem DecResult.done {e : List Byte} {s : State} (h : DecResult e s) : s.dec.phase = .done := by
  refine (statusByte_done_bit s.dec.phase s.decErrKind).mp ?_
  change (statusOf s .dec).getLsbD 1 = true
  obtain h | h | h := h.status <;> rw [h] <;> rfl

/-- While steps are left each turn of DEC is one of them. -/
theorem repeatTurn_dec_running {e : List Byte} {s : State} (hinv : s.Inv) (hrun : DecRunning e s) (m : Nat)
    (hm : decStepsTaken s + m < decStepCount e) :
    ∃ v, repeatTurn .dec m s = .next v ∧ v.Inv ∧ DecRunning e v ∧ decStepsTaken v = decStepsTaken s + m := by
  induction m with
  | zero => exact ⟨s, rfl, hinv, hrun, rfl⟩
  | succ m ih =>
    obtain ⟨v, hv, hvinv, hvrun, htaken⟩ := ih (by omega)
    obtain ⟨t, ht⟩ := decTurn_completes hvinv
    obtain ⟨htrun, htaken'⟩ | ⟨-, hlast⟩ := decAdvances_decTurn hvinv hvrun ht
    · exact ⟨t, (repeatTurn_succ hv).trans ht, inv_decTurn hvinv ht, htrun, by rw [htaken', htaken]; rfl⟩
    · omega

/-- The turn of DEC with one step left ends the DECODE with its result. -/
theorem decResult_of_last_turn {e : List Byte} {s t : State} (hinv : s.Inv) (hrun : DecRunning e s)
    (hlast : decStepCount e ≤ decStepsTaken s + 1) (h : decTurn s = .next t) : DecResult e t := by
  obtain ⟨htrun, htaken⟩ | ⟨hres, -⟩ := decAdvances_decTurn hinv hrun h
  · have hlt := htrun.stepsTaken_lt (inv_decTurn hinv h)
    omega
  · exact hres

/-- Settles O56: from START on each turn is one step, and the last of the count gives the result. -/
theorem decodeStepCount : Obligations.DecodeStepCount := by
  intro s t e h hp hlen hsrc ht
  have hinv := inv_exec h ht
  obtain rfl := Host.Outcome.next.inj ((exec_decode_of_not_busy hp).symm.trans ht)
  have hruns {m : Nat} (hm : m < decStepCount e) :=
    repeatTurn_dec_running hinv ⟨rfl, hlen, hsrc⟩ m (by rwa [decStepsTaken_check rfl, Nat.zero_add])
  refine ⟨fun m hm => ?_, ?_⟩
  · obtain ⟨v, hv, -, ⟨hbusy, -⟩, -⟩ := hruns hm
    exact ⟨v, hv, hbusy⟩
  · have hpos := decStepCount_pos e
    obtain ⟨v, hv, hvinv, hvrun, htaken⟩ := hruns (Nat.sub_one_lt_of_lt hpos)
    obtain ⟨t, ht⟩ := decTurn_completes hvinv
    have hrepeat := (repeatTurn_succ hv).trans ht
    rw [Nat.sub_one_add_one hpos.ne'] at hrepeat
    change decStepsTaken v = 0 + (decStepCount e - 1) at htaken
    exact ⟨t, hrepeat, (decResult_of_last_turn hvinv hvrun (by omega) ht).done⟩

/-! ## A DECODE under a schedule (R134, R159, R233) -/

/-- Unit DEC holds the result of a DECODE of `e`, or runs it and `c` more turns of its own suffice. -/
def DecEndsWithin (e : List Byte) (c : Nat) (s : State) : Prop :=
  (DecRunning e s ∧ decStepCount e ≤ decStepsTaken s + c) ∨ DecResult e s

/-- What ENC does is no matter to a DECODE. -/
theorem DecEndsWithin.withEncOf {e : List Byte} {c : Nat} {s : State} (h : DecEndsWithin e c s) (a : State) :
    DecEndsWithin e c (s.withEncOf a) :=
  h

/-- The schedule is no matter to a DECODE. -/
theorem DecEndsWithin.withTurns {e : List Byte} {c : Nat} {s : State} (h : DecEndsWithin e c s)
    (ts : List Turn) : DecEndsWithin e c { s with turns := ts } :=
  h

/-- A turn of DEC brings the end one turn nearer. -/
theorem DecEndsWithin.of_decTurn {e : List Byte} {c : Nat} {s t : State} (hinv : s.Inv)
    (h : DecEndsWithin e (c + 1) s) (ht : decTurn s = .next t) : DecEndsWithin e c t := by
  obtain ⟨hrun, hc⟩ | hres := h
  · obtain ⟨htrun, htaken⟩ | ⟨htres, -⟩ := decAdvances_decTurn hinv hrun ht
    · exact .inl ⟨htrun, by omega⟩
    · exact .inr htres
  · rw [decTurn_not_busy (by simp [hres.done])] at ht
    cases ht
    exact .inr hres

/-- With no turn left to wait for, the result is there. -/
theorem DecEndsWithin.result {e : List Byte} {s : State} (hinv : s.Inv) (h : DecEndsWithin e 0 s) :
    DecResult e s := by
  obtain ⟨hrun, hc⟩ | hres := h
  · exact absurd (hrun.stepsTaken_lt hinv) (by omega)
  · exact hres

/-- What every step of a schedule keeps of a DECODE of `e`: the turns left suffice for the result, and
`SRC` and `LEN` are as given. -/
def DecOnSchedule (e : List Byte) (src : Memory) (len : Nat) (s : State) : Prop :=
  DecEndsWithin e (s.turns.count .dec) s ∧ s.dec.src = src ∧ s.dec.len = len

theorem step_decOnSchedule {e : List Byte} {src : Memory} {len : Nat} {s t : State} {a : Turn} {ts : List Turn}
    (hinv : s.Inv) (hreq : s.requests = []) (hts : s.turns = a :: ts) (ha : a ≠ .platform)
    (h : step s = .next t) (hs : DecOnSchedule e src len s) : DecOnSchedule e src len t := by
  obtain ⟨hends, hsrc, hlen⟩ := hs
  obtain ⟨htt, -⟩ := step_no_requests_turns hreq hts ha h
  have hends' := hts ▸ hends.withTurns ts
  rw [DecOnSchedule, htt]
  obtain ⟨rfl, rfl⟩ | ⟨rfl, ht⟩ | ⟨rfl, ht⟩ := step_no_requests hreq hts ha h
  · exact ⟨by simpa using hends', hsrc, hlen⟩
  · rw [encTurn_frame ht]
    exact ⟨DecEndsWithin.withEncOf (by simpa using hends') t, hsrc, hlen⟩
  · obtain ⟨-, -, hlen', hsrc'⟩ := decTurn_movesForward ht
    exact ⟨DecEndsWithin.of_decTurn (inv_turns hinv ts) (by simpa using hends') ht, hsrc'.trans hsrc,
      hlen'.trans hlen⟩

/-- Settles O54: START begins the run, and along the schedule the result comes nearer with each turn of
DEC until it is there. -/
theorem decodeRunsToItsResult : Obligations.DecodeRunsToItsResult := by
  intro s e h hp hlen hsrc hreq hplat hcount
  have ht := exec_decode_of_not_busy hp
  obtain ⟨v, hv, hinv, hturns, hend, hkept⟩ :=
    run_schedule (P := DecOnSchedule e s.dec.src s.dec.len) step_decOnSchedule (inv_exec h ht) hreq hplat
      ⟨.inl ⟨⟨rfl, hlen, hsrc⟩, by rwa [decStepsTaken_check rfl, Nat.zero_add]⟩, rfl, rfl⟩
  rw [hturns] at hend
  exact ⟨_, v, ht, hv, hend.result hinv, hkept⟩

end Sys2Proof.Machine

/-! SUPPORT. The proofs about START, the host's reads and writes, and the results they see
(spec/42_host_access.md). -/

namespace Sys2Proof.Machine

/-! ## A held result stands (R158) -/

/-- In `t` unit `u` shows the host the result it shows in `s`: phase, `OUT_LEN`, error record and every
`DST` cell (R158). -/
structure ResultStands (u : UnitId) (s t : State) : Prop where
  phase : (t.unit u).phase = (s.unit u).phase
  outLen : (t.unit u).outLen = (s.unit u).outLen
  errKind : errKindOf t u = errKindOf s u
  errValue : errValueOf t u = errValueOf s u
  errOffset : errOffsetOf t u = errOffsetOf s u
  cell : ∀ a, readCell t u .dst a = readCell s u .dst a

theorem ResultStands.refl (u : UnitId) (s : State) : ResultStands u s s :=
  ⟨rfl, rfl, rfl, rfl, rfl, fun _ => rfl⟩

theorem ResultStands.trans {u : UnitId} {s t v : State} (h : ResultStands u s t) (h' : ResultStands u t v) :
    ResultStands u s v :=
  ⟨h'.phase.trans h.phase, h'.outLen.trans h.outLen, h'.errKind.trans h.errKind,
    h'.errValue.trans h.errValue, h'.errOffset.trans h.errOffset, fun a => (h'.cell a).trans (h.cell a)⟩

theorem ResultStands.status {u : UnitId} {s t : State} (h : ResultStands u s t) :
    statusOf t u = statusOf s u := by
  rw [statusOf, statusOf, h.phase, h.errKind]

theorem ResultStands.readSeq {u : UnitId} {s t : State} (h : ResultStands u s t) (m : Nat) :
    readSeq t u .dst m = readSeq s u .dst m :=
  readSeq_congr fun a _ => h.cell a

/-- The model's own fields are no part of a result. -/
theorem resultStands_nextTurn (u : UnitId) (s : State) : ResultStands u s (nextTurn s).2 := by
  obtain ⟨ts, d, e⟩ := nextTurn_state s
  rw [e]
  cases u <;> exact ⟨rfl, rfl, rfl, rfl, rfl, fun _ => rfl⟩

theorem resultStands_requests (u : UnitId) (s : State) (rs : List Request) :
    ResultStands u s { s with requests := rs } := by
  cases u <;> exact ⟨rfl, rfl, rfl, rfl, rfl, fun _ => rfl⟩

theorem resultStands_answered (u : UnitId) (s : State) (a : Answer) : ResultStands u s (answered s a) := by
  cases u <;> exact ⟨rfl, rfl, rfl, rfl, rfl, fun _ => rfl⟩

/-- ENC's registers are no part of a result of DEC. -/
theorem resultStands_withEncOf (s a : State) : ResultStands .dec s (s.withEncOf a) :=
  ⟨rfl, rfl, rfl, rfl, rfl, fun _ => rfl⟩

/-- DEC's registers are no part of a result of ENC. -/
theorem resultStands_withDecOf (s b : State) : ResultStands .enc s (s.withDecOf b) :=
  ⟨rfl, rfl, rfl, rfl, rfl, fun _ => rfl⟩

/-- A write to the registers of a unit that leaves phase, `OUT_LEN` and `DST` alone leaves every result. -/
theorem resultStands_setUnit {s : State} {u : UnitId} {r : UnitRegs} (hp : r.phase = (s.unit u).phase)
    (ho : r.outLen = (s.unit u).outLen) (hd : r.dst = (s.unit u).dst) (w : UnitId) :
    ResultStands w s (s.setUnit u r) := by
  have hkind : errKindOf (s.setUnit u r) w = errKindOf s w := by cases u <;> cases w <;> rfl
  have hvalue : errValueOf (s.setUnit u r) w = errValueOf s w := by cases u <;> cases w <;> rfl
  have hoffset : errOffsetOf (s.setUnit u r) w = errOffsetOf s w := by cases u <;> cases w <;> rfl
  by_cases hw : w = u
  · subst hw
    exact ⟨by simpa using hp, by simpa using ho, hkind, hvalue, hoffset,
      readCell_congr (by simpa [UnitRegs.buf] using hd) (State.setUnit_epoch ..)⟩
  · have hregs : (s.setUnit u r).unit w = s.unit w := by rw [State.unit_setUnit, if_neg hw]
    exact ⟨by rw [hregs], by rw [hregs], hkind, hvalue, hoffset,
      readCell_congr (by rw [hregs]) (State.setUnit_epoch ..)⟩

/-- START of a unit makes it BUSY, and leaves the other unit's result. -/
theorem startUnit_resultStands {u : UnitId} {s t : State} (h : startUnit u s = .next t) (w : UnitId) :
    ResultStands w s t ∨ (t.unit w).phase = .busy := by
  obtain ⟨-, rfl⟩ | ⟨-, -, -, rfl⟩ | ⟨-, -, rfl⟩ := startUnit_next h
  · exact .inl (.refl w t)
  · cases w with
    | enc => exact .inr rfl
    | dec => exact .inl ⟨rfl, rfl, rfl, rfl, rfl, fun _ => rfl⟩
  · cases w with
    | enc => exact .inl ⟨rfl, rfl, rfl, rfl, rfl, fun _ => rfl⟩
    | dec => exact .inr rfl

theorem exec_resultStands {i : Instr} {s t : State} (h : exec i s = .next t) (w : UnitId) :
    ResultStands w s t ∨ (t.unit w).phase = .busy := by
  cases exec_next h with
  | nothing h => rw [h]; exact .inl (.refl w s)
  | answers a h => rw [h]; exact .inl (resultStands_answered w s a)
  | starts u h => exact startUnit_resultStands h w
  | setsLen u v _ _ h => rw [h]; exact .inl (resultStands_setUnit (by rfl) (by rfl) (by rfl) w)
  | writesSrc u a v _ _ h => rw [h]; exact .inl (resultStands_setUnit (by rfl) (by rfl) (by rfl) w)

theorem hostTurn_resultStands {s t : State} (h : hostTurn s = .next t) (w : UnitId) :
    ResultStands w s t ∨ (t.unit w).phase = .busy := by
  obtain ⟨-, rfl⟩ | ⟨r, rs, i, -, -, he⟩ := hostTurn_next h
  · exact .inl (.refl w t)
  · exact (exec_resultStands he w).imp_left (resultStands_requests w s rs).trans

/-- A turn of ENC leaves the result of DEC, and its own once it has one. -/
theorem encTurn_resultStands {s t : State} {u : UnitId} (hp : (s.unit u).phase ≠ .busy)
    (h : encTurn s = .next t) : ResultStands u s t := by
  cases u with
  | enc =>
    obtain rfl := Host.Outcome.next.inj ((encTurn_not_busy hp).symm.trans h)
    exact .refl .enc s
  | dec => rw [encTurn_frame h]; exact resultStands_withEncOf s t

/-- A turn of DEC leaves the result of ENC, and its own once it has one. -/
theorem decTurn_resultStands {s t : State} {u : UnitId} (hp : (s.unit u).phase ≠ .busy)
    (h : decTurn s = .next t) : ResultStands u s t := by
  cases u with
  | enc => rw [decTurn_frame h]; exact resultStands_withDecOf s t
  | dec =>
    obtain rfl := Host.Outcome.next.inj ((decTurn_not_busy hp).symm.trans h)
    exact .refl .dec s

/-- Whoever moves, the result of a unit that is not BUSY stands, but for RESET and the unit's START. -/
theorem step_resultStands {s t : State} {u : UnitId} (hp : (s.unit u).phase ≠ .busy)
    (h : step s = .next t) :
    (nextTurn s).1 = .platform ∨
    ((nextTurn s).1 = .host ∧ (t.unit u).phase = .busy) ∨
    ResultStands u s t := by
  have htaken := resultStands_nextTurn u s
  rw [← htaken.phase] at hp
  obtain ⟨hturn, ht⟩ | ⟨-, ht⟩ | ⟨-, ht⟩ | ⟨hturn, -⟩ := step_next h
  · obtain hstands | hbusy := hostTurn_resultStands ht u
    · exact .inr (.inr (htaken.trans hstands))
    · exact .inr (.inl ⟨hturn, hbusy⟩)
  · exact .inr (.inr (htaken.trans (encTurn_resultStands hp ht)))
  · exact .inr (.inr (htaken.trans (decTurn_resultStands hp ht)))
  · exact .inl hturn

/-- Settles O42: the result stands, and its phase with it. -/
theorem doneIsSticky : Obligations.DoneIsSticky := by
  intro s t u hp h
  refine (step_resultStands (by simp [hp]) h).imp_right (Or.imp_right fun hstands => ?_)
  exact ⟨hstands.phase.trans hp, hstands.outLen, hstands.status, hstands.errValue, hstands.errOffset,
    fun a _ => hstands.cell a⟩

/-! ## The call law (R56, R157, R159) -/

/-- Unit `u` is running an operation on the source sequence `x`: `EncRunning` and `DecRunning` for a unit
that is a variable. -/
def UnitRunning (u : UnitId) (x : List Byte) (s : State) : Prop :=
  (s.unit u).phase = .busy ∧ (s.unit u).n = x.length ∧ readSeq s u .src x.length = x

theorem unitRunning_enc_iff {x : List Byte} {s : State} : UnitRunning .enc x s ↔ EncRunning x s := Iff.rfl

theorem unitRunning_dec_iff {x : List Byte} {s : State} : UnitRunning .dec x s ↔ DecRunning x s := Iff.rfl

theorem UnitRunning.congr {u : UnitId} {x : List Byte} {s t : State} (h : UnitRunning u x s)
    (hu : t.unit u = s.unit u) (he : t.epoch = s.epoch) : UnitRunning u x t := by
  have hread := readSeq_of_buf (b := .src) (congrArg (UnitRegs.buf · .src) hu) he x.length
  simpa only [UnitRunning, hu, hread] using h

theorem UnitRunning.nextTurn {u : UnitId} {x : List Byte} {s : State} (h : UnitRunning u x s) :
    UnitRunning u x (nextTurn s).2 :=
  h.congr (nextTurn_unit s u) (nextTurn_epoch s)

/-- The agent that takes the steps of a unit (R17). -/
def unitTurn (u : UnitId) : Turn :=
  match u with
  | .enc => .enc
  | .dec => .dec

/-- No agent but its own and the platform moves the registers of a BUSY unit (R228). -/
theorem step_unit_of_busy {s t : State} {u : UnitId} (hp : (s.unit u).phase = .busy) (h : step s = .next t)
    (hne : (nextTurn s).1 ≠ .platform) :
    t.unit u = s.unit u ∨ takeTurn (unitTurn u) (nextTurn s).2 = .next t := by
  rw [← nextTurn_unit s u] at hp ⊢
  obtain ⟨-, ht⟩ | ⟨-, ht⟩ | ⟨-, ht⟩ | ⟨hturn, -⟩ := step_next h
  · obtain hsame | ⟨hidle, -⟩ := hostTurn_mayMove ht u
    · exact .inl hsame
    · exact absurd hp hidle
  · cases u with
    | enc => exact .inr ht
    | dec => exact .inl (encTurn_dec ht)
  · cases u with
    | enc => exact .inl (decTurn_enc ht)
    | dec => exact .inr ht
  · exact absurd hturn hne

/-- A running operation runs on, or its unit took a turn. -/
theorem step_unitRunning {u : UnitId} {x : List Byte} {s t : State} (hrun : UnitRunning u x s)
    (h : step s = .next t) (hne : (nextTurn s).1 ≠ .platform) :
    UnitRunning u x t ∨ takeTurn (unitTurn u) (nextTurn s).2 = .next t :=
  (step_unit_of_busy hrun.1 h hne).imp_left fun hsame => hrun.congr hsame (step_epoch h hne)

/-- A turn of ENC leaves its ENCODE running, or ends it with its result. -/
theorem EncRunning.of_encTurn {x : List Byte} {s t : State} (hinv : s.Inv) (hrun : EncRunning x s)
    (h : encTurn s = .next t) : EncRunning x t ∨ EncResult x t := by
  have hends : EncEndsWithin x (encOutLen x.length + 1) s := .inl ⟨hrun, Nat.le_add_left ..⟩
  exact (hends.of_encTurn hinv h).imp_left And.left

/-- A turn of DEC leaves its DECODE running, or ends it with its result. -/
theorem DecRunning.of_decTurn {e : List Byte} {s t : State} (hinv : s.Inv) (hrun : DecRunning e s)
    (h : decTurn s = .next t) : DecRunning e t ∨ DecResult e t :=
  (decAdvances_decTurn hinv hrun h).imp And.left And.left

/-- The result of an ENCODE is what unit ENC shows the host. -/
theorem EncResult.of_resultStands {x : List Byte} {s t : State} (h : EncResult x s)
    (hstands : ResultStands .enc s t) : EncResult x t := by
  obtain ⟨hstatus, hout, hcells, hvalue, hoffset⟩ := h
  exact ⟨hstands.status.trans hstatus, hstands.outLen.trans hout, (hstands.readSeq _).trans hcells,
    hvalue, hoffset⟩

/-- The result of a DECODE is what unit DEC shows the host. -/
theorem DecResult.of_resultStands {e : List Byte} {s t : State} (h : DecResult e s)
    (hstands : ResultStands .dec s t) : DecResult e t := by
  have hout : t.dec.outLen = s.dec.outLen := hstands.outLen
  have hvalue : t.decErrValue = s.decErrValue := hstands.errValue
  have hoffset : t.decErrOffset = s.decErrOffset := hstands.errOffset
  simpa only [DecResult, hstands.status, hout, hvalue, hoffset, hstands.readSeq] using h

/-- Settles O57: the unit's own turn moves a running operation on or ends it with its result, no other
agent touches it, and a result stands until the host starts the unit. -/
theorem callLawHoldsAtEveryStep : Obligations.CallLawHoldsAtEveryStep := by
  intro s t x hinv h hne
  have hinv' := inv_nextTurn hinv
  refine ⟨fun hrun => ?_, fun hrun => ?_, fun hres => ?_, fun hres => ?_⟩
  · have hrun := unitRunning_enc_iff.mpr hrun
    obtain hrun' | ht := step_unitRunning hrun h hne
    · exact .inl hrun'
    · exact EncRunning.of_encTurn hinv' hrun.nextTurn ht
  · have hrun := unitRunning_dec_iff.mpr hrun
    obtain hrun' | ht := step_unitRunning hrun h hne
    · exact .inl hrun'
    · exact DecRunning.of_decTurn hinv' hrun.nextTurn ht
  · obtain hturn | hstart | hstands := step_resultStands (u := .enc) hres.not_busy h
    · exact absurd hturn hne
    · exact .inr hstart
    · exact .inl (hres.of_resultStands hstands)
  · obtain hturn | hstart | hstands := step_resultStands (u := .dec) (by simp [hres.done]) h
    · exact absurd hturn hne
    · exact .inr hstart
    · exact .inl (hres.of_resultStands hstands)

/-! ## START and the writes of registers (R151, R153) -/

/-- A write of `CTRL` with value bit 0 set is START (R28). -/
theorem exec_wrr_ctrl_start {v : Nat} (hv : v.testBit 0 = true) (u : UnitId) (s : State) :
    exec (.wrr u .ctrl v) s = startUnit u s :=
  if_pos hv

/-- A write of `CTRL` with value bit 0 clear does nothing (R28). -/
theorem exec_wrr_ctrl_clear {v : Nat} (hv : v.testBit 0 = false) (u : UnitId) (s : State) :
    exec (.wrr u .ctrl v) s = .next s := by
  rw [exec, execWrr, writeCtrl, if_neg (by simp [hv])]

theorem exec_encode_refused {s : State} (hp : s.enc.phase ≠ .busy)
    (hf : fits s.cfg (encOutLen s.enc.len) = false) :
    exec .encode s = .refused (.beyondMaxLen .enc) := by
  simp [exec, execEncode, startUnit, hp, hf]

/-- Settles O18: START by phase and by fit, and the write of `CTRL` that is START. -/
theorem startBeginsAnOperation : Obligations.StartBeginsAnOperation := fun s =>
  ⟨exec_wrr_ctrl_start rfl .enc s, exec_wrr_ctrl_start rfl .dec s,
    fun hp => startUnit_busy (u := .enc) hp, fun hp => startUnit_busy (u := .dec) hp,
    exec_encode_refused,
    fun hp hf => ⟨_, exec_encode_of_fits hp hf, rfl, statusByte_busy, rfl, rfl⟩,
    fun hp => ⟨_, exec_decode_of_not_busy hp, rfl, statusByte_busy⟩⟩

theorem exec_wrr_len_busy {s : State} {u : UnitId} (hp : (s.unit u).phase = .busy) (v : Nat) :
    exec (.wrr u .len v) s = .refused (.writeWhileBusy u) :=
  if_pos hp

theorem exec_wrr_len_beyond {s : State} {u : UnitId} {v : Nat} (hp : (s.unit u).phase ≠ .busy)
    (hv : fits s.cfg v = false) : exec (.wrr u .len v) s = .refused (.beyondMaxLen u) := by
  rw [exec, execWrr, writeLen, if_neg hp, if_neg (by simp [hv])]

/-- Settles O19: `LEN` by phase and by fit, `CTRL` by bit 0, and the registers that are refused. -/
theorem wrrByRegister : Obligations.WrrByRegister := by
  refine fun u v s => ⟨exec_wrr_len, fun hp => exec_wrr_len_busy hp v, exec_wrr_len_beyond, fun hv => ?_,
    fun hv => exec_wrr_ctrl_clear hv u s, fun r hr => ?_, fun r hr => ?_⟩
  · rw [exec_wrr_ctrl_start hv]
    cases u <;> rfl
  · obtain rfl | rfl | rfl | rfl := hr <;> rfl
  · obtain rfl | rfl := hr <;> rfl

/-! ## The reads of registers (R150) -/

/-- Settles O20: `readReg` gives a value for the six registers and none for the other two indices. -/
theorem rdrReadsTheRegister : Obligations.RdrReadsTheRegister := fun _ _ =>
  ⟨exec_rdr_of_readReg rfl, exec_rdr_of_readReg rfl, exec_rdr_of_readReg rfl, exec_rdr_of_readReg rfl,
    exec_rdr_of_readReg rfl, exec_rdr_of_readReg rfl, rfl, rfl⟩

/-! ## The cells of a unit's buffers (R154, R155, R156) -/

theorem exec_wrs_busy {s : State} {u : UnitId} (hp : (s.unit u).phase = .busy) (a : Nat) (v : Byte) :
    exec (.wrs u a v) s = .refused (.writeWhileBusy u) :=
  if_pos hp

theorem exec_wrs_beyond {s : State} {u : UnitId} {a : Nat} (hp : (s.unit u).phase ≠ .busy)
    (ha : inRange s.cfg a = false) (v : Byte) : exec (.wrs u a v) s = .refused (.beyondMaxLen u) := by
  rw [exec, execWrs, if_neg hp, if_neg (by simp [ha])]

/-- Settles O22: the state `writeSrc` gives, cell by cell and register by register. -/
theorem wrsStoresOneSourceByte : Obligations.WrsStoresOneSourceByte := by
  refine fun u a v s => ⟨fun hp ha => ⟨writeSrc s u a v, exec_wrs hp ha v, ?_, fun w b c hne => ?_, ?_⟩,
    fun hp => exec_wrs_busy hp a v, fun hp ha => exec_wrs_beyond hp ha v⟩
  · rw [readCell_writeSrc, if_pos ⟨rfl, rfl, rfl⟩]
  · rw [readCell_writeSrc, if_neg hne]
  · rw [writeSrc, State.unit_setUnit_same]

theorem exec_rds {s : State} {a : Nat} (ha : inRange s.cfg a = true) (u : UnitId) :
    exec (.rds u a) s = .next { s with answer := some (.byte (readCell s u .src a)) } :=
  if_pos ha

theorem exec_rds_beyond {s : State} {a : Nat} (ha : inRange s.cfg a = false) (u : UnitId) :
    exec (.rds u a) s = .refused (.beyondMaxLen u) := by
  rw [exec, execRds, if_neg (by simp [ha])]

theorem readCell_of_unwritten {s : State} {u : UnitId} {b : Buf} {a : Nat}
    (h : Memory.get? ((s.unit u).buf b) a = none) : readCell s u b a = Config.unwrittenByte s.epoch u b a := by
  rw [readCell, h, Option.getD_none]

/-- Settles O23: the cell as it reads, which after a store is the byte stored. -/
theorem rdsReadsOneSourceByte : Obligations.RdsReadsOneSourceByte := by
  refine fun u a s => ⟨fun ha => exec_rds ha u, fun ha => exec_rds_beyond ha u, fun v hp ha => ?_,
    fun hget => readCell_of_unwritten hget⟩
  have hread := exec_rds (s := writeSrc s u a v) (by rwa [writeSrc_cfg]) u
  refine ⟨_, (runOps_cons (exec_wrs hp ha v)).trans (runOps_cons hread), ?_⟩
  simp [readCell_writeSrc]

/-- Settles O24: readable exactly in DONE below `OUT_LEN`. -/
theorem rddReadsOneResultByte : Obligations.RddReadsOneResultByte := fun _ _ _ =>
  ⟨exec_rdd_readable, fun hp => exec_rdd_refused fun hd => absurd hd hp, fun ha => exec_rdd_refused fun _ => ha⟩

end Sys2Proof.Machine

/-! SUPPORT. The proofs of the laws of the codec: what its functions are to each other, and what becomes
of them on the hardware (spec/43_laws.md). -/

namespace Sys2Proof.Machine

/-! ## The functions (R170, R172, R173, R178 to R180, R182 to R184) -/

/-- The round trip of the functions (R170). -/
theorem decodeSeq_encodeSeq (x : List Byte) : decodeSeq (encodeSeq x) = .ok x :=
  decodeSeq_eq_ok_iff.mpr rfl

theorem encodeSeq_injective : Function.Injective encodeSeq := by
  intro x y h
  have hx := decodeSeq_encodeSeq x
  rw [h, decodeSeq_encodeSeq] at hx
  exact (DecodeResult.ok.inj hx).symm

/-- Settles O13: what decodes is an encoding, and an encoding decodes to one sequence only. -/
theorem decodeIsExactPartialInverse : Obligations.DecodeIsExactPartialInverse :=
  ⟨fun _ _ h => encodeSeq_injective h, fun _ _ => decodeSeq_eq_ok_iff⟩

theorem encodeSeq_append (x y : List Byte) : encodeSeq (x ++ y) = encodeSeq x ++ encodeSeq y := by
  induction x with
  | nil => rfl
  | cons p rest ih => rw [List.cons_append, encodeSeq, ih, encodeSeq, List.append_assoc]

/-- Settles O14: what decodes is an encoding, so two such sequences are one, and the first invalid byte
behind markers is the first of the whole. -/
theorem codecRespectsConcatenation : Obligations.CodecRespectsConcatenation := by
  refine ⟨encodeSeq_append, fun e f x y he hf => ?_, fun e f x v a he _ hf => ?_⟩
  · obtain rfl := decodeSeq_eq_ok_iff.mp he
    obtain rfl := decodeSeq_eq_ok_iff.mp hf
    rw [← encodeSeq_append, decodeSeq_encodeSeq]
  · obtain ⟨helen, hmarks⟩ := exists_decodeSeq_eq_ok_iff.mp ⟨x, he⟩
    obtain ⟨hflen, hfirst⟩ := decodeSeq_eq_invalidMarker_iff.mp hf
    exact decodeSeq_eq_invalidMarker_iff.mpr
      ⟨by rw [List.length_append]; omega, hfirst.append_of_markers hmarks⟩

/-- Settles O15: a legal marker is one of the two bytes. -/
theorem encodeOutputOnlySentinels : Obligations.EncodeOutputOnlySentinels :=
  fun _ _ h => isMark_iff.mp (isMark_of_mem_encodeSeq h)

/-- Whole groups with a byte that is no marker give the marker error (R179). -/
theorem exists_decodeSeq_eq_invalidMarker {e : List Byte} (hlen : e.length % 8 = 0) {b : Byte} (hb : b ∈ e)
    (hmark : isMark b = false) : ∃ v a, decodeSeq e = .err (.invalidMarker v a) := by
  obtain ⟨hbad, -⟩ | ⟨-, x, -, hx⟩ | ⟨-, k, v, -, herr⟩ := decodeSeq_cases e
  · exact absurd hlen hbad
  · obtain ⟨-, hmarks⟩ := exists_decodeSeq_eq_ok_iff.mp ⟨x, hx⟩
    simp [hmarks b hb] at hmark
  · exact ⟨v, k, herr⟩

/-- Settles O16: the two error clauses from the cases of `Decode`, the examples by evaluation. -/
theorem documentedProperties : Obligations.DocumentedProperties := by
  refine ⟨by decide, fun e => decodeSeq_eq_lengthNotMultipleOf8_iff.mpr, fun e hlen ⟨b, hb, hmark⟩ => ?_,
    by decide, rfl, rfl⟩
  exact exists_decodeSeq_eq_invalidMarker (by rw [hlen]) hb (isMark_eq_false_iff.mpr hmark)

/-- The sequences of markers are the bit sequences, bit by bit. -/
theorem setOf_markers_eq_image (m : Nat) :
    { e : List Byte | e.length = m ∧ ∀ b ∈ e, isMark b = true } =
      List.map encbit '' { bs : List Bool | bs.length = m } := by
  ext e
  constructor
  · rintro ⟨hlen, hmarks⟩
    refine ⟨e.map markBit, by simpa using hlen, ?_⟩
    rw [List.map_map]
    exact (List.map_congr_left fun b hb => encbit_markBit (hmarks b hb)).trans (List.map_id e)
  · rintro ⟨bs, hlen, rfl⟩
    refine ⟨by simpa using hlen, fun b hb => ?_⟩
    obtain ⟨c, -, rfl⟩ := List.mem_map.mp hb
    exact isMark_encbit c

theorem ncard_bits (m : Nat) : Set.ncard { bs : List Bool | bs.length = m } = 2 ^ m := by
  rw [← Nat.card_coe_set_eq]
  exact (Nat.card_eq_fintype_card (α := List.Vector Bool m)).trans (card_vector m)

/-- Settles O17: a length that is no multiple of 8 is refused, and otherwise exactly the sequences of
markers decode, one per bit sequence. -/
theorem acceptedSequencesCounted : Obligations.AcceptedSequencesCounted := by
  intro m
  simp only [exists_decodeSeq_eq_ok_iff]
  split
  next hm =>
    have hset : { e : List Byte | e.length = m ∧ e.length % 8 = 0 ∧ ∀ b ∈ e, isMark b = true } =
        { e | e.length = m ∧ ∀ b ∈ e, isMark b = true } := by
      ext e
      exact and_congr_right fun hlen => and_iff_right (hlen ▸ hm)
    rw [hset, setOf_markers_eq_image, Set.ncard_image_of_injective _ encbit_injective.list_map, ncard_bits]
  next hm =>
    have hset : { e : List Byte | e.length = m ∧ e.length % 8 = 0 ∧ ∀ b ∈ e, isMark b = true } = ∅ :=
      Set.eq_empty_of_forall_notMem fun e ⟨hlen, hmod, _⟩ => hm (hlen ▸ hmod)
    rw [hset, Set.ncard_empty]

/-! ## Turns of one unit (R109, R140) -/

/-- What each turn of an agent keeps holds after any number of them. -/
theorem repeatTurn_keeps {P : State → Prop} {a : Turn}
    (hkeep : ∀ {s t : State}, P s → takeTurn a s = .next t → P t) {m : Nat} {s v : State} (hP : P s)
    (h : repeatTurn a m s = .next v) : P v := by
  induction m generalizing s with
  | zero => cases h; exact hP
  | succ m ih =>
    rw [repeatTurn] at h
    split at h
    next s' hs => exact ih (hkeep hP hs) h
    next => cases h
    next => cases h

theorem inv_takeTurn {a : Turn} {s t : State} (hinv : s.Inv) (h : takeTurn a s = .next t) : t.Inv := by
  cases a with
  | host => exact inv_hostTurn hinv h
  | enc => exact inv_encTurn hinv h
  | dec => exact inv_decTurn hinv h
  | platform => cases h; exact inv_resetEvent s

/-- Turns of ENC touch neither unit DEC nor the configuration. -/
theorem repeatTurn_enc_frame {m : Nat} {s v : State} (h : repeatTurn .enc m s = .next v) :
    v.dec = s.dec ∧ v.cfg = s.cfg :=
  repeatTurn_keeps (a := .enc) (P := fun t => t.dec = s.dec ∧ t.cfg = s.cfg)
    (fun ⟨hdec, hcfg⟩ ht => ⟨(encTurn_dec ht).trans hdec, (encTurn_cfg ht).trans hcfg⟩) ⟨rfl, rfl⟩ h

/-- An operation whose every turn goes on with it or gives its result, and whose result no further turn
moves, runs on or has given its result after any number of turns. -/
theorem repeatTurn_running_or_result {Run Res : State → Prop} {a : Turn}
    (hrun : ∀ {s t : State}, s.Inv → Run s → takeTurn a s = .next t → Run t ∨ Res t)
    (hres : ∀ {s : State}, Res s → takeTurn a s = .next s) {m : Nat} {s v : State} (hinv : s.Inv)
    (hs : Run s) (h : repeatTurn a m s = .next v) : Run v ∨ Res v := by
  have hkeep {s t : State} (hs : s.Inv ∧ (Run s ∨ Res s)) (ht : takeTurn a s = .next t) :
      t.Inv ∧ (Run t ∨ Res t) := by
    obtain ⟨hinv, hs | hs⟩ := hs
    · exact ⟨inv_takeTurn hinv ht, hrun hinv hs ht⟩
    · rw [hres hs] at ht
      cases ht
      exact ⟨hinv, .inr hs⟩
  obtain ⟨-, hv⟩ := repeatTurn_keeps hkeep ⟨hinv, .inl hs⟩ h
  exact hv

/-- However many turns ENC took, a DONE unit holds the result of the ENCODE it was started for. -/
theorem encResult_of_turns {x : List Byte} {m : Nat} {s t v : State} (hinv : s.Inv) (hp : s.enc.phase ≠ .busy)
    (hlen : s.enc.len = x.length) (hsrc : readSeq s .enc .src x.length = x) (ht : exec .encode s = .next t)
    (hv : repeatTurn .enc m t = .next v) (hdone : v.enc.phase = .done) : EncResult x v := by
  have hinvt := inv_exec hinv ht
  obtain rfl := exec_encode_next hp ht
  obtain ⟨hbusy, -⟩ | hres := repeatTurn_running_or_result (a := .enc) (Run := EncRunning x)
    (Res := EncResult x) EncRunning.of_encTurn (fun hres => encTurn_not_busy hres.not_busy) hinvt
    ⟨rfl, hlen, hsrc⟩ hv
  · simp [hbusy] at hdone
  · exact hres

/-- However many turns DEC took, a DONE unit holds the result of the DECODE it was started for. -/
theorem decResult_of_turns {e : List Byte} {m : Nat} {s t v : State} (hinv : s.Inv) (hp : s.dec.phase ≠ .busy)
    (hlen : s.dec.len = e.length) (hsrc : readSeq s .dec .src e.length = e) (ht : exec .decode s = .next t)
    (hv : repeatTurn .dec m t = .next v) (hdone : v.dec.phase = .done) : DecResult e v := by
  have hinvt := inv_exec hinv ht
  obtain rfl := Host.Outcome.next.inj ((exec_decode_of_not_busy hp).symm.trans ht)
  obtain ⟨hbusy, -⟩ | hres := repeatTurn_running_or_result (a := .dec) (Run := DecRunning e)
    (Res := DecResult e) DecRunning.of_decTurn (fun hres => decTurn_not_busy (by simp [hres.done])) hinvt
    ⟨rfl, hlen, hsrc⟩ hv
  · simp [hbusy] at hdone
  · exact hres

/-! ## A result depends on its source alone (R41, R181, R203) -/

/-- The host sees the same in two states that hold the result of one ENCODE. -/
theorem EncResult.agree {x : List Byte} {v v' : State} (h : EncResult x v) (h' : EncResult x v') :
    statusOf v .enc = statusOf v' .enc ∧ v.enc.outLen = v'.enc.outLen ∧
    readSeq v .enc .dst v.enc.outLen = readSeq v' .enc .dst v.enc.outLen := by
  obtain ⟨hstatus, hout, hcells, -⟩ := h
  obtain ⟨hstatus', hout', hcells', -⟩ := h'
  rw [hout, hcells, hcells', hout']
  exact ⟨hstatus.trans hstatus'.symm, rfl, rfl⟩

/-- The row of R134's table that `Decode(e)` selects has one value for all that the host sees. -/
theorem decResult_values (e : List Byte) :
    ∃ (status : Byte) (outLen : Nat) (value : Byte) (offset : Nat) (cells : List Byte), ∀ s : State,
      DecResult e s → statusOf s .dec = status ∧ s.dec.outLen = outLen ∧ s.decErrValue = value ∧
        s.decErrOffset = offset ∧ readSeq s .dec .dst outLen = cells := by
  obtain ⟨-, hres⟩ | ⟨-, x, -, hres⟩ | ⟨-, a, v, -, hres⟩ := decodeSeq_cases e
  · exact ⟨0x06#8, 0, 0x00#8, 0, [], fun s h => by simpa [DecResult, hres] using h⟩
  · exact ⟨0x02#8, e.length / 8, 0x00#8, 0, x, fun s h => by simpa only [DecResult, hres] using h⟩
  · exact ⟨0x0A#8, 0, v, a, [], fun s h => by simpa [DecResult, hres] using h⟩

/-- The host sees the same in two states that hold the result of one DECODE. -/
theorem DecResult.agree {e : List Byte} {v v' : State} (h : DecResult e v) (h' : DecResult e v') :
    statusOf v .dec = statusOf v' .dec ∧ v.dec.outLen = v'.dec.outLen ∧
    v.decErrValue = v'.decErrValue ∧ v.decErrOffset = v'.decErrOffset ∧
    readSeq v .dec .dst v.dec.outLen = readSeq v' .dec .dst v.dec.outLen := by
  obtain ⟨_, _, _, _, _, hvalues⟩ := decResult_values e
  obtain ⟨hstatus, hout, hvalue, hoffset, hcells⟩ := hvalues v h
  obtain ⟨hstatus', hout', hvalue', hoffset', hcells'⟩ := hvalues v' h'
  rw [hout, hcells, hcells', hout']
  exact ⟨hstatus.trans hstatus'.symm, rfl, hvalue.trans hvalue'.symm, hoffset.trans hoffset'.symm, rfl⟩

/-- Settles O59: both runs hold the result of one and the same source. -/
theorem resultDependsOnTheSourceAlone : Obligations.ResultDependsOnTheSourceAlone := by
  refine ⟨fun s s' t t' v v' m m' h h' hp hp' hlen hsrc ht ht' hv hv' hd hd' => ?_,
    fun s s' t t' v v' m m' h h' hp hp' hlen hsrc ht ht' hv hv' hd hd' => ?_⟩
  · have hres := decResult_of_turns h hp (readSeq_length ..).symm (by rw [readSeq_length]) ht hv hd
    have hres' := decResult_of_turns h' hp' (readSeq_length ..).symm (by rw [readSeq_length]) ht' hv' hd'
    rw [← hlen, ← hsrc] at hres'
    exact hres.agree hres'
  · have hres := encResult_of_turns h hp (readSeq_length ..).symm (by rw [readSeq_length]) ht hv hd
    have hres' := encResult_of_turns h' hp' (readSeq_length ..).symm (by rw [readSeq_length]) ht' hv' hd'
    rw [← hlen, ← hsrc] at hres'
    exact hres.agree hres'

/-! ## The round trip on the hardware (R86, R170) -/

theorem inv_runOps {is : List Instr} {s t : State} (hinv : s.Inv) (h : runOps is s = .next t) : t.Inv := by
  induction is generalizing s with
  | nil => cases h; exact hinv
  | cons i rest ih =>
    rw [runOps] at h
    split at h
    next r hr => exact ih (inv_exec hinv hr) h
    next => cases h
    next => cases h

/-- `START` is the unit's command (R86, R153). -/
theorem runOps_pseudoStart {u : UnitId} {s t : State} (h : startUnit u s = .next t) :
    runOps (pseudoStart u) s = .next t := by
  rw [pseudoStart, runOps_cons ((exec_wrr_ctrl_start rfl u s).trans h), runOps]

/-- One byte of `COPY`: a readable result byte is read, and a byte is stored at its offset. -/
theorem runOps_copy_cons {s : State} {a : Nat} (hd : s.enc.phase = .done) (hp : s.dec.phase ≠ .busy)
    (ha : a < s.enc.outLen) (hr : inRange s.cfg a = true) (v : Byte) (rest : List Instr) :
    runOps (.rdd .enc a :: .wrs .dec a v :: rest) s =
      runOps rest (writeSrc (answered s (.byte (readCell s .enc .dst a))) .dec a v) :=
  (runOps_cons (exec_rdd_readable (u := .enc) hd ha)).trans
    (runOps_cons (exec_wrs (s := answered s _) (u := .dec) hp hr v))

/-- The reads and stores of `COPY` leave the bytes in `DEC.SRC`; besides, only the last answer moves. -/
theorem runOps_copyBytes {s : State} {a : Nat} {vs : List Byte} (hd : s.enc.phase = .done)
    (hp : s.dec.phase ≠ .busy) (hout : a + vs.length ≤ s.enc.outLen) (hf : fits s.cfg (a + vs.length) = true) :
    ∃ ans, runOps (copyBytes a vs) s =
      .next { s with dec := { s.dec with src := Memory.setSeq s.dec.src a vs }, answer := ans } := by
  induction vs generalizing s a with
  | nil => exact ⟨s.answer, rfl⟩
  | cons v rest ih =>
    rw [List.length_cons] at hout hf
    have hlen : a + 1 + rest.length = a + (rest.length + 1) := by omega
    rw [copyBytes, runOps_copy_cons hd hp (by omega) (inRange_of_fits hf (by omega))]
    exact ih hd hp (hlen ▸ hout) (hlen ▸ hf)

/-- `COPY` is a LOAD of `DEC` with the bytes read. -/
theorem runOps_pseudoCopy {s : State} {vs : List Byte} (hd : s.enc.phase = .done) (hp : s.dec.phase ≠ .busy)
    (hout : vs.length ≤ s.enc.outLen) (hf : fits s.cfg vs.length = true) :
    ∃ ans, runOps (pseudoCopy vs) s = .next { s.withSource .dec vs with answer := ans } := by
  have hread : exec (.rdr .enc .outLen) s = .next { s with answer := some (.value s.enc.outLen) } :=
    exec_rdr_of_readReg rfl
  obtain ⟨ans, hcopy⟩ := runOps_copyBytes (s := { s with answer := some (.value s.enc.outLen) }) (a := 0)
    (vs := vs) hd hp ((Nat.zero_add _).symm ▸ hout) ((Nat.zero_add _).symm ▸ hf)
  exact ⟨ans, (runOps_cons hread).trans ((runOps_append hcopy).trans (runOps_cons (exec_wrr_len hp hf)))⟩

/-- LOAD, START and the turns of an ENCODE bring unit ENC to its result, and touch nothing of DEC. -/
theorem exists_encode_run {s : State} {x : List Byte} (hinv : s.Inv) (hp : s.enc.phase ≠ .busy)
    (hf : fits s.cfg (8 * x.length) = true) :
    ∃ a b, runOps (pseudoLoad .enc x ++ pseudoStart .enc) s = .next a ∧
      repeatTurn .enc (8 * x.length + 1) a = .next b ∧
      b.Inv ∧ b.enc.phase = .done ∧ EncResult x b ∧ b.dec = s.dec ∧ b.cfg = s.cfg := by
  have hload := runOps_pseudoLoad (u := .enc) hp (fits_mono hf (Nat.le_mul_of_pos_left x.length (by decide)))
  have hloaded := inv_runOps hinv hload
  have hstart := exec_encode_of_fits (s := s.withSource .enc x) hp hf
  obtain ⟨-, b, hb, hdone⟩ := encodeStepCount _ _ hloaded hp hstart
  obtain ⟨hdec, hcfg⟩ := repeatTurn_enc_frame hb
  exact ⟨_, b, (runOps_append hload).trans (runOps_pseudoStart hstart), hb,
    repeatTurn_keeps inv_takeTurn (inv_exec hloaded hstart) hb, hdone,
    encResult_of_turns hloaded hp rfl (readSeq_withSource ..) hstart hb hdone, hdec, hcfg⟩

/-- START and the turns of a DECODE bring unit DEC to its result. -/
theorem exists_decode_run {s : State} {e : List Byte} (hinv : s.Inv) (hp : s.dec.phase ≠ .busy)
    (hlen : s.dec.len = e.length) (hsrc : readSeq s .dec .src e.length = e) :
    ∃ c d, runOps (pseudoStart .dec) s = .next c ∧ repeatTurn .dec (decStepCount e) c = .next d ∧
      DecResult e d := by
  have hstart := exec_decode_of_not_busy hp
  obtain ⟨-, d, hd, hdone⟩ := decodeStepCount _ _ e hinv hp hlen hsrc hstart
  exact ⟨_, d, runOps_pseudoStart hstart, hd, decResult_of_turns hinv hp hlen hsrc hstart hd hdone⟩

/-- Of the codes of phase DONE, `0x02` is the one with no error (R29). -/
theorem errKind_ok_of_statusByte {p : Phase} {k : ErrKind} : statusByte p k = 0x02#8 → k = .ok := by
  cases p <;> cases k <;> decide

/-- What a DECODE of an encoding leaves (R134, R170). -/
theorem DecResult.of_encodeSeq {x : List Byte} {s : State} (h : DecResult (encodeSeq x) s) :
    errKindOf s .dec = .ok ∧ s.dec.outLen = x.length ∧ readSeq s .dec .dst s.dec.outLen = x := by
  have hlen : (encodeSeq x).length / 8 = x.length := by rw [encodeSeq_length]; omega
  simp only [DecResult, decodeSeq_encodeSeq, hlen] at h
  obtain ⟨hstatus, hout, -, -, hcells⟩ := h
  exact ⟨errKind_ok_of_statusByte hstatus, hout, by rw [hout, hcells]⟩

theorem decStepCount_encodeSeq (x : List Byte) : decStepCount (encodeSeq x) = x.length + 2 := by
  rw [decStepCount_of_ok (decodeSeq_encodeSeq x), encodeSeq_length]
  omega

/-- Settles O58: the ENCODE leaves `Encode(x)` in `ENC.DST`, `COPY` loads `DEC` with it, and the DECODE
gives what `Decode` makes of it. -/
theorem roundTripOnTheHardware : Obligations.RoundTripOnTheHardware := by
  refine ⟨decodeSeq_encodeSeq, fun s x hinv hpe hpd hf => ?_⟩
  obtain ⟨a, b, ha, hb, hinvb, hdone, ⟨-, hout, hcells, -⟩, hdec, hcfg⟩ := exists_encode_run hinv hpe hf
  have hpd' : b.dec.phase ≠ .busy := by rwa [hdec]
  obtain ⟨ans, hcopy⟩ := runOps_pseudoCopy (vs := encodeSeq x) hdone hpd' (by rw [hout, encodeSeq_length])
    (by rwa [hcfg, encodeSeq_length])
  obtain ⟨c, d, hc, hd, hres⟩ := exists_decode_run (e := encodeSeq x) (inv_runOps hinvb hcopy) hpd' rfl
    (readSeq_withSource b .dec (encodeSeq x))
  rw [decStepCount_encodeSeq] at hd
  rw [← hout] at hcells
  exact ⟨a, b, c, d, ha, hb, by rw [hcells, runOps_append hcopy, hc], hd, hres.done, hres.of_encodeSeq⟩

end Sys2Proof.Machine

/-! SUPPORT. The proofs about errors: what recording one does and what a recorded marker error says of
the source (spec/60_exceptions.md). -/

namespace Sys2Proof.Machine

/-! ## Recording an error (R198) -/

/-- Settles O34: the two records as `raiseError` writes them, with the two error codes of phase DONE. -/
theorem raiseRecordsTheError : Obligations.RaiseRecordsTheError := fun _ _ _ =>
  ⟨rfl, statusByte_done_length, rfl, statusByte_done_marker⟩

/-! ## A recorded marker error is precise (R33, R199) -/

theorem readSeq_getElem?_eq_some_iff {s : State} {u : UnitId} {b : Buf} {m i : Nat} {v : Byte} :
    (readSeq s u b m)[i]? = some v ↔ i < m ∧ readCell s u b i = v := by
  simp [List.getElem?_eq_some_iff, readSeq]

/-- The first invalid byte of a sequence in a buffer, told by the buffer's cells. -/
theorem firstInvalidAt_readSeq {s : State} {u : UnitId} {b : Buf} {m k : Nat} {v : Byte}
    (h : FirstInvalidAt (readSeq s u b m) k v) :
    k < m ∧ readCell s u b k = v ∧ isMark v = false ∧ ∀ c < k, isMark (readCell s u b c) = true := by
  obtain ⟨hk, hv, hbefore⟩ := h
  obtain ⟨hlt, hcell⟩ := readSeq_getElem?_eq_some_iff.mp hk
  refine ⟨hlt, hcell, hv, fun c hc => ?_⟩
  obtain ⟨m, hm, hmark⟩ := hbefore c hc
  obtain ⟨-, rfl⟩ := readSeq_getElem?_eq_some_iff.mp hm
  exact hmark

/-- Of the rows of R134's table, the one with a marker error is that of the error in the record. -/
theorem DecResult.decodeSeq_of_invalidMarker {e : List Byte} {s : State} (h : DecResult e s)
    (hk : s.decErrKind = .invalidMarker) :
    decodeSeq e = .err (.invalidMarker s.decErrValue s.decErrOffset) := by
  have hstatus : statusOf s .dec = 0x0A#8 := by simp [statusOf, errKindOf, h.done, hk]
  unfold DecResult at h
  split at h
  next => simp [hstatus] at h
  next => simp [hstatus] at h
  next v a he =>
    obtain ⟨-, -, rfl, rfl⟩ := h
    exact he

/-- The step of DEC that records a marker error has met the first invalid byte of the latched source: the
unit no longer runs, so it holds the result of its DECODE. -/
theorem decTurn_firstInvalidAt {s t : State} (hinv : s.Inv) (hp : s.dec.phase = .busy)
    (h : decTurn s = .next t) (hk : t.decErrKind = .invalidMarker) :
    FirstInvalidAt (readSeq s .dec .src s.dec.n) t.decErrOffset t.decErrValue := by
  have hrun : DecRunning (readSeq s .dec .src s.dec.n) s := ⟨hp, by simp, by simp⟩
  obtain ⟨hbusy, -⟩ | hres := hrun.of_decTurn hinv h
  · obtain ⟨-, hok, -⟩ := inv_not_done (inv_decTurn hinv h) (u := .dec) (by simp [hbusy])
    exact absurd (hk.symm.trans hok) (by decide)
  · obtain ⟨-, hfirst⟩ := decodeSeq_eq_invalidMarker_iff.mp (hres.decodeSeq_of_invalidMarker hk)
    exact hfirst

/-- Settles O35: the record names the first invalid byte of the latched source, and the step leaves `n` and
the cells of `SRC` alone. -/
theorem markerErrorIsPrecise : Obligations.MarkerErrorIsPrecise := by
  intro s t hinv hp h hk
  obtain ⟨-, hn, -, hsrc⟩ := decTurn_movesForward h
  have hcell : ∀ a, readCell t .dec .src a = readCell s .dec .src a := readCell_congr hsrc (decTurn_epoch h)
  obtain ⟨hlt, hval, hbad, hbefore⟩ := firstInvalidAt_readSeq (decTurn_firstInvalidAt hinv hp h hk)
  obtain ⟨hzero, hone⟩ := isMark_eq_false_iff.mp hbad
  exact ⟨(hcell _).trans hval, hn ▸ hlt, hzero, hone,
    fun b hb => hcell b ▸ isMark_iff.mp (hbefore b hb), hsrc⟩

end Sys2Proof.Machine

/-! SUPPORT. The proofs about reset: the RESET event in any phase (spec/70_reset_and_hazards.md). -/

namespace Sys2Proof.Machine

/-! ## The RESET event (R220, R221) -/

@[simp] theorem resetEvent_unit (s : State) (u : UnitId) : (resetEvent s).unit u = UnitRegs.reset := by
  cases u <;> rfl

@[simp] theorem errKindOf_resetEvent (s : State) (u : UnitId) : errKindOf (resetEvent s) u = .ok := by
  cases u <;> rfl

@[simp] theorem errValueOf_resetEvent (s : State) (u : UnitId) : errValueOf (resetEvent s) u = 0x00#8 := by
  cases u <;> rfl

@[simp] theorem errOffsetOf_resetEvent (s : State) (u : UnitId) : errOffsetOf (resetEvent s) u = 0 := by
  cases u <;> rfl

theorem statusOf_resetEvent (s : State) (u : UnitId) : statusOf (resetEvent s) u = 0x00#8 := by
  rw [statusOf, resetEvent_unit, errKindOf_resetEvent]
  exact statusByte_idle

@[simp] theorem UnitRegs.buf_reset (b : Buf) : UnitRegs.reset.buf b = [] := by
  cases b <;> rfl

/-- No cell is written after RESET, so each reads as the draw of the new epoch, whatever it held. -/
theorem readCell_resetEvent (s : State) (u : UnitId) (b : Buf) (a : Nat) :
    readCell (resetEvent s) u b a = Config.unwrittenByte (s.epoch + 1) u b a :=
  readCell_of_unwritten (by rw [resetEvent_unit, UnitRegs.buf_reset, Memory.get?])

/-- A step whose turn is the platform's is the RESET event, in any phase of either unit. -/
theorem step_of_platform {s : State} {ts : List Turn} (h : s.turns = .platform :: ts) :
    step s = .next (resetEvent { s with turns := ts }) :=
  step_of_turns h

/-- Settles O36: the step is `resetEvent`, whose registers do not depend on the state before it. -/
theorem resetEventResetsBothUnits : Obligations.ResetEventResetsBothUnits := by
  intro s ts hts
  refine ⟨resetEvent { s with turns := ts }, step_of_platform hts, fun u => ?registers, rfl, rfl,
    readCell_resetEvent _, rfl, rfl, rfl, rfl⟩
  case registers =>
    rw [resetEvent_unit]
    exact ⟨rfl, statusOf_resetEvent _ u, rfl, rfl, errValueOf_resetEvent _ u, errOffsetOf_resetEvent _ u,
      rfl, rfl⟩

end Sys2Proof.Machine
